-- ==== Sys2Proof/Word.lean ====
section
/-! DEFINITION. The word types of the CORE: bytes, 16-bit words, and the 4- and 12-bit fields of an instruction word (spec/00_scope.md R13, spec/30_encoding.md R112). -/

namespace Sys2Proof

/-- An unsigned byte, the spec's `u8` (R13). -/
abbrev Byte := BitVec 8

/-- An unsigned 16-bit word, the spec's `u16` (R13): an instruction word, `I`, `PC`, a stack entry. -/
abbrev Word := BitVec 16

/-- A 4-bit field: a register index `X` or `Y`, the field `N`, a key or font digit (R112). -/
abbrev Nibble := BitVec 4

/-- The 12-bit address field `NNN` (R112). -/
abbrev Addr := BitVec 12

/-- The register index of `VF`, the flag register (spec/10_state.md R32). -/
abbrev vf : Nibble := 0xF#4

end Sys2Proof
end

