-- ==== Sys2Proof/Syntax.lean ====
section
/-! DEFINITION. The instructions: one constructor per row of spec/opcode_table.json, with the fields of spec/30_encoding.md R112 that the row's word carries (also those its meaning ignores: N of 5XYN and 9XYN, Y of 8XY6 and 8XYE). -/

namespace Sys2Proof

/-- One instruction of spec/30_encoding.md R115. Operand types are the fields' own widths, so a term is an
instruction exactly as its word encodes it. -/
inductive Instr where
  /-- 00E0 `CLS` (R220) -/
  | cls
  /-- 00EE `RET` (R161) -/
  | ret
  /-- 1NNN `JP NNN` (R162) -/
  | jp (nnn : Addr)
  /-- 2NNN `CALL NNN` (R163) -/
  | call (nnn : Addr)
  /-- 3XNN `SE Vx, NN` (R164) -/
  | seImm (x : Nibble) (nn : Byte)
  /-- 4XNN `SNE Vx, NN` (R165) -/
  | sneImm (x : Nibble) (nn : Byte)
  /-- 5XYN `SE Vx, Vy` (R166); N is ignored (R117) -/
  | seReg (x y n : Nibble)
  /-- 6XNN `LD Vx, NN` (R191) -/
  | ldImm (x : Nibble) (nn : Byte)
  /-- 7XNN `ADD Vx, NN` (R192) -/
  | addImm (x : Nibble) (nn : Byte)
  /-- 8XY0 `LD Vx, Vy` (R193) -/
  | ldReg (x y : Nibble)
  /-- 8XY1 `OR Vx, Vy` (R194) -/
  | orReg (x y : Nibble)
  /-- 8XY2 `AND Vx, Vy` (R195) -/
  | andReg (x y : Nibble)
  /-- 8XY3 `XOR Vx, Vy` (R196) -/
  | xorReg (x y : Nibble)
  /-- 8XY4 `ADD Vx, Vy` (R197) -/
  | addReg (x y : Nibble)
  /-- 8XY5 `SUB Vx, Vy` (R198) -/
  | subReg (x y : Nibble)
  /-- 8XY6 `SHR Vx, Vy` (R199); Y is not read (D37) -/
  | shr (x y : Nibble)
  /-- 8XY7 `SUBN Vx, Vy` (R200) -/
  | subnReg (x y : Nibble)
  /-- 8XYE `SHL Vx, Vy` (R201); Y is not read (D37) -/
  | shl (x y : Nibble)
  /-- 9XYN `SNE Vx, Vy` (R167); N is ignored (R117) -/
  | sneReg (x y n : Nibble)
  /-- ANNN `LD I, NNN` (R260) -/
  | ldI (nnn : Addr)
  /-- BNNN `JP V0, NNN` (R168) -/
  | jpV0 (nnn : Addr)
  /-- CXNN `RND Vx, NN` (R202) -/
  | rnd (x : Nibble) (nn : Byte)
  /-- DXYN `DRW Vx, Vy, N` (R221) -/
  | drw (x y n : Nibble)
  /-- EX9E `SKP Vx` (R240) -/
  | skp (x : Nibble)
  /-- EXA1 `SKNP Vx` (R241) -/
  | sknp (x : Nibble)
  /-- FX07 `LD Vx, DT` (R242) -/
  | ldVxDt (x : Nibble)
  /-- FX0A `LD Vx, K` (R245) -/
  | ldVxK (x : Nibble)
  /-- FX15 `LD DT, Vx` (R243) -/
  | ldDtVx (x : Nibble)
  /-- FX18 `LD ST, Vx` (R244) -/
  | ldStVx (x : Nibble)
  /-- FX1E `ADD I, Vx` (R261) -/
  | addI (x : Nibble)
  /-- FX29 `LD F, Vx` (R262) -/
  | ldF (x : Nibble)
  /-- FX33 `LD B, Vx` (R263) -/
  | ldB (x : Nibble)
  /-- FX55 `LD [I], Vx`, register-dump (R264) -/
  | dump (x : Nibble)
  /-- FX65 `LD Vx, [I]`, register-load (R265) -/
  | load (x : Nibble)
  deriving DecidableEq, Repr

end Sys2Proof
end

