-- ==== Sys2Proof/Decode.lean ====
section
/-! DEFINITION. Decoding a word into an instruction, total on every word and every byte string (spec/30_encoding.md R111 to R118), and after it the encoder and the opcode map. The bit patterns and field places are the spec's R112 and R115 (log 13). -/

namespace Sys2Proof

/-- Why the decoder gives no instruction. -/
inductive DecodeError where
  /-- The word matches no row of R115 (R118); a cycle that fetches it warns and goes on (spec/40_cycle.md R144). -/
  | unrecognized (w : Word)
  /-- Fewer than two bytes stand where an instruction word should. Only the byte-string decoder says so: a fetch
  that lacks a byte raises `FetchOutOfBounds` before it decodes. -/
  | truncated
  deriving DecidableEq, Repr

/-- `op` = w[15:12] (R112). -/
def opField (w : Word) : Nibble := w.extractLsb' 12 4
/-- `X` = w[11:8] (R112). -/
def xField (w : Word) : Nibble := w.extractLsb' 8 4
/-- `Y` = w[7:4] (R112). -/
def yField (w : Word) : Nibble := w.extractLsb' 4 4
/-- `N` = w[3:0] (R112). -/
def nField (w : Word) : Nibble := w.extractLsb' 0 4
/-- `NN` = w[7:0] (R112). -/
def nnField (w : Word) : Byte := w.extractLsb' 0 8
/-- `NNN` = w[11:0] (R112). -/
def nnnField (w : Word) : Addr := w.extractLsb' 0 12

/-- Family 0: the whole word selects (R116). -/
def decodeFamily0 (w : Word) : Option Instr :=
  if w = 0x00E0#16 then some .cls
  else if w = 0x00EE#16 then some .ret
  else none

/-- Family 8: N selects (R114, R115). -/
def decodeFamily8 (w : Word) : Option Instr :=
  match (nField w).toNat with
  | 0x0 => some (.ldReg (xField w) (yField w))
  | 0x1 => some (.orReg (xField w) (yField w))
  | 0x2 => some (.andReg (xField w) (yField w))
  | 0x3 => some (.xorReg (xField w) (yField w))
  | 0x4 => some (.addReg (xField w) (yField w))
  | 0x5 => some (.subReg (xField w) (yField w))
  | 0x6 => some (.shr (xField w) (yField w))
  | 0x7 => some (.subnReg (xField w) (yField w))
  | 0xE => some (.shl (xField w) (yField w))
  | _ => none

/-- Family E: NN selects (R114, R115). -/
def decodeFamilyE (w : Word) : Option Instr :=
  if nnField w = 0x9E#8 then some (.skp (xField w))
  else if nnField w = 0xA1#8 then some (.sknp (xField w))
  else none

/-- Family F: NN selects (R114, R115). -/
def decodeFamilyF (w : Word) : Option Instr :=
  if nnField w = 0x07#8 then some (.ldVxDt (xField w))
  else if nnField w = 0x0A#8 then some (.ldVxK (xField w))
  else if nnField w = 0x15#8 then some (.ldDtVx (xField w))
  else if nnField w = 0x18#8 then some (.ldStVx (xField w))
  else if nnField w = 0x1E#8 then some (.addI (xField w))
  else if nnField w = 0x29#8 then some (.ldF (xField w))
  else if nnField w = 0x33#8 then some (.ldB (xField w))
  else if nnField w = 0x55#8 then some (.dump (xField w))
  else if nnField w = 0x65#8 then some (.load (xField w))
  else none

/-- The instruction of a word, if the word matches a row of R115: dispatch on the high nibble, then on the
selector of the overloaded families (R114). -/
def decodeRow (w : Word) : Option Instr :=
  match (opField w).toNat with
  | 0x0 => decodeFamily0 w
  | 0x1 => some (.jp (nnnField w))
  | 0x2 => some (.call (nnnField w))
  | 0x3 => some (.seImm (xField w) (nnField w))
  | 0x4 => some (.sneImm (xField w) (nnField w))
  | 0x5 => some (.seReg (xField w) (yField w) (nField w))
  | 0x6 => some (.ldImm (xField w) (nnField w))
  | 0x7 => some (.addImm (xField w) (nnField w))
  | 0x8 => decodeFamily8 w
  | 0x9 => some (.sneReg (xField w) (yField w) (nField w))
  | 0xA => some (.ldI (nnnField w))
  | 0xB => some (.jpV0 (nnnField w))
  | 0xC => some (.rnd (xField w) (nnField w))
  | 0xD => some (.drw (xField w) (yField w) (nField w))
  | 0xE => decodeFamilyE w
  | _ => decodeFamilyF w

/-- The decoder on one word: total, without side effects, naming the words it does not recognize (R111). -/
def decodeWord (w : Word) : Except DecodeError Instr :=
  match decodeRow w with
  | some i => .ok i
  | none => .error (.unrecognized w)

/-- The word of two consecutive bytes, the first the high one: big-endian (R110, spec/20_memory.md R77). -/
def wordOfBytes (hi lo : Byte) : Word := hi ++ lo

/-- The decoder on a byte string: the instruction of its first word, and the bytes after it. -/
def decode : List Byte → Except DecodeError (Instr × List Byte)
  | hi :: lo :: rest =>
    match decodeWord (wordOfBytes hi lo) with
    | .ok i => .ok (i, rest)
    | .error e => .error e
  | _ => .error .truncated

/-- The word `op X NN` (R112, second layout). -/
def wordXNN (op x : Nibble) (nn : Byte) : Word := op ++ x ++ nn
/-- The word `op X Y N` (R112, first layout). -/
def wordXYN (op x y n : Nibble) : Word := op ++ x ++ y ++ n
/-- The word `op NNN` (R112, third layout). -/
def wordNNN (op : Nibble) (nnn : Addr) : Word := op ++ nnn

/-- The word of an instruction, by the patterns of R115. -/
def encode : Instr → Word
  | .cls => 0x00E0#16
  | .ret => 0x00EE#16
  | .jp nnn => wordNNN 0x1 nnn
  | .call nnn => wordNNN 0x2 nnn
  | .seImm x nn => wordXNN 0x3 x nn
  | .sneImm x nn => wordXNN 0x4 x nn
  | .seReg x y n => wordXYN 0x5 x y n
  | .ldImm x nn => wordXNN 0x6 x nn
  | .addImm x nn => wordXNN 0x7 x nn
  | .ldReg x y => wordXYN 0x8 x y 0x0
  | .orReg x y => wordXYN 0x8 x y 0x1
  | .andReg x y => wordXYN 0x8 x y 0x2
  | .xorReg x y => wordXYN 0x8 x y 0x3
  | .addReg x y => wordXYN 0x8 x y 0x4
  | .subReg x y => wordXYN 0x8 x y 0x5
  | .shr x y => wordXYN 0x8 x y 0x6
  | .subnReg x y => wordXYN 0x8 x y 0x7
  | .shl x y => wordXYN 0x8 x y 0xE
  | .sneReg x y n => wordXYN 0x9 x y n
  | .ldI nnn => wordNNN 0xA nnn
  | .jpV0 nnn => wordNNN 0xB nnn
  | .rnd x nn => wordXNN 0xC x nn
  | .drw x y n => wordXYN 0xD x y n
  | .skp x => wordXNN 0xE x 0x9E
  | .sknp x => wordXNN 0xE x 0xA1
  | .ldVxDt x => wordXNN 0xF x 0x07
  | .ldVxK x => wordXNN 0xF x 0x0A
  | .ldDtVx x => wordXNN 0xF x 0x15
  | .ldStVx x => wordXNN 0xF x 0x18
  | .addI x => wordXNN 0xF x 0x1E
  | .ldF x => wordXNN 0xF x 0x29
  | .ldB x => wordXNN 0xF x 0x33
  | .dump x => wordXNN 0xF x 0x55
  | .load x => wordXNN 0xF x 0x65

/-- The high byte of a word, the one stored at the lower address (R77). -/
def hiByte (w : Word) : Byte := w.extractLsb' 8 8
/-- The low byte of a word. -/
def loByte (w : Word) : Byte := w.extractLsb' 0 8

/-- The two bytes of an instruction, as they stand in memory (R77, R110). -/
def encodeBytes (i : Instr) : List Byte := [hiByte (encode i), loByte (encode i)]

/-- A row of the opcode map R115: a word selects it iff `w & mask = match`. -/
structure OpcodeRow where
  /-- the row's `match` column -/
  pattern : Word
  /-- the row's `mask` column -/
  mask : Word
  deriving DecidableEq, Repr

/-- `(w & mask_r) == match_r` (R115). -/
def OpcodeRow.selects (r : OpcodeRow) (w : Word) : Bool := w &&& r.mask == r.pattern

/-- The rows of R115, in its order. -/
def opcodeRows : List OpcodeRow :=
  [⟨0x00E0, 0xFFFF⟩, ⟨0x00EE, 0xFFFF⟩, ⟨0x1000, 0xF000⟩, ⟨0x2000, 0xF000⟩, ⟨0x3000, 0xF000⟩,
   ⟨0x4000, 0xF000⟩, ⟨0x5000, 0xF000⟩, ⟨0x6000, 0xF000⟩, ⟨0x7000, 0xF000⟩] ++
  [⟨0x8000, 0xF00F⟩, ⟨0x8001, 0xF00F⟩, ⟨0x8002, 0xF00F⟩, ⟨0x8003, 0xF00F⟩, ⟨0x8004, 0xF00F⟩,
   ⟨0x8005, 0xF00F⟩, ⟨0x8006, 0xF00F⟩, ⟨0x8007, 0xF00F⟩, ⟨0x800E, 0xF00F⟩] ++
  [⟨0x9000, 0xF000⟩, ⟨0xA000, 0xF000⟩, ⟨0xB000, 0xF000⟩, ⟨0xC000, 0xF000⟩, ⟨0xD000, 0xF000⟩,
   ⟨0xE09E, 0xF0FF⟩, ⟨0xE0A1, 0xF0FF⟩] ++
  [⟨0xF007, 0xF0FF⟩, ⟨0xF00A, 0xF0FF⟩, ⟨0xF015, 0xF0FF⟩, ⟨0xF018, 0xF0FF⟩, ⟨0xF01E, 0xF0FF⟩,
   ⟨0xF029, 0xF0FF⟩, ⟨0xF033, 0xF0FF⟩, ⟨0xF055, 0xF0FF⟩, ⟨0xF065, 0xF0FF⟩]

/-- For the host: what the decoder reads from the two bytes, in memory order, of the instruction whose low `nbits`
bits are those of `w` and whose other bits are 0. -/
def decodeTableWord (nbits w : Nat) : Option Instr :=
  let word : Word := BitVec.ofNat 16 (w % 2 ^ nbits)
  match decode [hiByte word, loByte word] with
  | .ok (i, _) => some i
  | .error _ => none

end Sys2Proof
end

