-- ==== Sys2Proof/Config.lean ====
section
/-! DEFINITION. What an implementation fixes: the constants and the open parameters of spec/00_scope.md R11, and the free value behind the random byte. -/

namespace Sys2Proof

/-- `MEM_SIZE` (R11): the Address Space has 4096 bytes. -/
abbrev memSize : Nat := 4096

/-- `PROG_BASE` (R11): the fixed entry point. -/
abbrev progBase : Nat := 0x200

/-- `MAX_ROM` (R11): `MEM_SIZE − PROG_BASE`. -/
abbrev maxRom : Nat := memSize - progBase

/-- `SCHED` (R11, spec/70_reset_and_hazards.md R370): the two scheduler strategies. -/
inductive Sched where
  /-- (a): one instruction per iteration; wall-clock time triggers the ticks. -/
  | a
  /-- (b): a batch of `floor(IPS / 60)` cycles, then one tick (R371). -/
  | b
  deriving DecidableEq, Repr

/-- The parameters a model takes as arguments (R11, R12), fixed while a program is loaded
(spec/10_state.md R56). State holds one of these, so that what is proved of every state holds for every
setting; no setting is built in. -/
structure Config where
  /-- `QUIRK_LS_INC` (D24): FX55 and FX65 advance `I` by X + 1. -/
  quirkLsInc : Bool
  /-- `QUIRK_FX1E_FLAG` (D25): FX1E sets VF on a sum above 0x0FFF. -/
  quirkFx1eFlag : Bool
  /-- `SCHED` (D33). -/
  sched : Sched
  /-- `IPS`, instructions per second (D34). -/
  ips : Nat
  deriving DecidableEq, Repr

/-- The defaults of R11: both quirks false, `IPS` 600. R11 gives no default for `SCHED`; strategy (a) is the
model's DESIGN CHOICE (log 3). -/
def Config.standard : Config :=
  { quirkLsInc := false, quirkFx1eFlag := false, sched := .a, ips := 600 }

/-- The batch of strategy (b): `floor(IPS / 60)` cycles per tick (R371). -/
def Config.batch (c : Config) : Nat := c.ips / 60

/-- FREE VALUE (log 5): draw number `n` of the random-byte source once the draws standing in `State.randIn`
are used up. No body: nothing can be proved of its values (spec/42_arith.md R202, D23). -/
opaque Config.freeRand : Nat → Byte

end Sys2Proof
end

