-- ==== Sys2Proof/Machine/State.lean ====
section
/-! DEFINITION. The machine's state as plain data, the events that drive it, and the state right after reset (spec/10_state.md R30 to R59). -/

namespace Sys2Proof.Machine

/-- The lifecycle state (R53). -/
inductive Lifecycle where
  | running
  | paused
  | quit
  deriving DecidableEq, Repr

/-- The error causes of spec/60_exceptions.md R300. -/
inductive Cause where
  | outOfBounds
  | stackOverflow
  | stackUnderflow
  | unrecognizedOpcode
  | fetchOutOfBounds
  | emptyRom
  | romTooLarge
  | romUnreadable
  | initFailure
  deriving DecidableEq, Repr

/-- One diagnostic record (R312). Its `code` is `Cause.code` of the cause. -/
structure Diagnostic where
  cause : Cause
  /-- the address of the instruction that raised it, or the `PC` that could not be fetched -/
  pc : Word
  /-- the instruction word, or 0 where none was fetched -/
  opcode : Word
  deriving DecidableEq, Repr

/-- The startup errors that come from outside the CORE (R300 codes 18 and 19). -/
inductive StartupReport where
  /-- the ROM file is missing or unreadable -/
  | romUnreadable
  /-- the display or the initialization failed -/
  | initFailure
  deriving DecidableEq, Repr

/-- What can happen next. The first seven are the events of spec/00_scope.md R4; the last is the collaborators'
report of a startup error (spec/60_exceptions.md R300, R307). -/
inductive Event where
  | cycle
  | tick
  | pause
  | resume
  | quit
  | keyWrite (k : Nibble) (down : Bool)
  | load (rom : List Byte)
  | startupFailed (why : StartupReport)
  deriving DecidableEq, Repr

/-- The Address Space: (address, byte) pairs, addresses strictly rising, no entry equal to what an unlisted
address reads as (`Memory.wf`). What an unlisted address reads as is `Memory.background`. -/
abbrev Memory := List Host.Cell

/-- The Display Buffer: row `y`, then column `x` (row-major, R51). `true` is a set pixel. -/
abbrev Display := Vector (Vector Bool 64) 32

/-- The state of the CORE. Field names are the spec's where it has one. -/
structure State where
  /-- V0..VF (R31); VF is also the flag register (R32) -/
  V : Vector Byte 16
  /-- the index register (R35) -/
  I : Word
  /-- the program counter (R37) -/
  PC : Word
  /-- the stack pointer, 0..16: the next free slot (R41) -/
  SP : Fin 17
  /-- the call stack (R40) -/
  stack : Vector Word 16
  /-- the delay timer (R45) -/
  DT : Byte
  /-- the sound timer (R45) -/
  ST : Byte
  /-- the Keypad (R47): `true` is pressed -/
  keypad : Vector Bool 16
  /-- the snapshot of the Keypad that the current cycle reads (R49, R58) -/
  key : Vector Bool 16
  /-- the Display Buffer (R51) -/
  disp : Display
  /-- the Address Space (spec/20_memory.md R70) -/
  mem : Memory
  /-- the lifecycle state (R53) -/
  lifecycle : Lifecycle
  /-- the diagnostics put out so far, oldest first (spec/60_exceptions.md R312, log 6) -/
  diag : List Diagnostic
  /-- the parameters (R56, spec/00_scope.md R11); no step writes them -/
  cfg : Config
  /-- strategy (b)'s position in the current tick interval: cycles run since its start (R58, log 4) -/
  batchPos : Nat
  /-- MODEL's own: events due next, in order (log 1) -/
  pending : List Event
  /-- MODEL's own: draws standing ready on the `rand8` input (log 5) -/
  randIn : List Byte
  /-- MODEL's own: draws already taken from the free stream (log 5) -/
  draws : Nat
  deriving DecidableEq, Repr

/-- Why a step stops for good. Only a startup error does: "All abort startup" (spec/60_exceptions.md R307). Every
one is safe: the spec enables no event after it. -/
inductive Fault where
  /-- `Load` of a ROM of length 0 (code 16); raised by the `load` event; safe -/
  | emptyRom
  /-- `Load` of a ROM longer than 3584 bytes (code 17); raised by the `load` event; safe -/
  | romTooLarge
  /-- the ROM could not be read (code 18); raised by the `startupFailed` event; safe -/
  | romUnreadable
  /-- display or initialization failure (code 19); raised by the `startupFailed` event; safe -/
  | initFailure
  deriving DecidableEq, Repr

/-- Why a step has no meaning. No step of this model answers one. -/
inductive Refusal where
  /-- an arm of `exec` without a meaning yet would answer this; none does; safe -/
  | notModelled (mnemonic : String)
  deriving DecidableEq, Repr

/-- The state after a successful `Load` (R59), before its ROM bytes are counted, under the parameters `c`. Memory
lists nothing: it reads as the font and zeros. -/
def State.resetWith (c : Config) : State :=
  { V := Vector.replicate 16 0
    I := 0
    PC := 0x200
    SP := 0
    stack := Vector.replicate 16 0
    DT := 0
    ST := 0
    keypad := Vector.replicate 16 false
    key := Vector.replicate 16 false
    disp := Vector.replicate 32 (Vector.replicate 64 false)
    mem := []
    lifecycle := .running
    diag := []
    cfg := c
    batchPos := 0
    pending := []
    randIn := []
    draws := 0 }

/-- The machine right after reset (R59), under R11's default parameters (log 3, log 8, log 9). -/
def State.reset : State := State.resetWith Config.standard

end Sys2Proof.Machine
end

