-- ==== Sys2Proof/Machine/Flags.lean ====
section
/-! DEFINITION. The values written to VF as a flag (spec/10_state.md R32): carry, no-borrow, the bit shifted out, and the index overflow of the FX1E quirk. The collision flag is computed where a sprite is drawn (Display.lean). -/

namespace Sys2Proof.Machine

/-- A flag as the byte VF holds: 1 or 0. -/
def flagByte (b : Bool) : Byte := if b then 1 else 0

/-- Carry out of bit 7: 1 iff `a + b > 255` (spec/42_arith.md R197). -/
def carryFlag (a b : Byte) : Bool := a.toNat + b.toNat > 255

/-- No borrow of `a − b`: 1 iff `a ≥ b` (R198; R200 with the operands exchanged). -/
def noBorrowFlag (a b : Byte) : Bool := a.toNat ≥ b.toNat

/-- The bit a right shift drops: bit 0 (R199). -/
def shiftedOutRight (a : Byte) : Bool := a.getLsbD 0

/-- The bit a left shift drops: bit 7 (R201). -/
def shiftedOutLeft (a : Byte) : Bool := a.getLsbD 7

/-- The FX1E quirk's flag: the sum passes the last address 0x0FFF (spec/45_index_memory.md R261, D25). -/
def indexOverflowFlag (i : Word) (v : Byte) : Bool := i.toNat + v.toNat > 0x0FFF

end Sys2Proof.Machine
end

