-- ==== Sys2Proof/Machine/Memory.lean ====
section
/-! DEFINITION. The Address Space: the font table, what an unlisted address reads as, and the access primitives (spec/20_memory.md). -/

namespace Sys2Proof.Machine

/-- The font table of R85, glyph after glyph: 16 glyphs of 5 bytes (log 10). -/
def font : List Byte :=
  [0xF0, 0x90, 0x90, 0x90, 0xF0] ++ [0x20, 0x60, 0x20, 0x20, 0x70] ++
  [0xF0, 0x10, 0xF0, 0x80, 0xF0] ++ [0xF0, 0x10, 0xF0, 0x10, 0xF0] ++
  [0x90, 0x90, 0xF0, 0x10, 0x10] ++ [0xF0, 0x80, 0xF0, 0x10, 0xF0] ++
  [0xF0, 0x80, 0xF0, 0x90, 0xF0] ++ [0xF0, 0x10, 0x20, 0x40, 0x40] ++
  [0xF0, 0x90, 0xF0, 0x90, 0xF0] ++ [0xF0, 0x90, 0xF0, 0x10, 0xF0] ++
  [0xF0, 0x90, 0xF0, 0x90, 0x90] ++ [0xE0, 0x90, 0xE0, 0x90, 0xE0] ++
  [0xF0, 0x80, 0x80, 0x80, 0xF0] ++ [0xE0, 0x90, 0x90, 0x90, 0xE0] ++
  [0xF0, 0x80, 0xF0, 0x80, 0xF0] ++ [0xF0, 0x80, 0xF0, 0x80, 0x80]

/-- What an unlisted address reads as: the contents after `Load` where there is no ROM byte, which are the font at
0x000..0x04F and 0 elsewhere (R59, R82, R86). -/
def Memory.background (a : Nat) : Byte := font.getD a 0

/-- The byte a memory holds at `a`, listed or not. -/
def Memory.get : Memory → Nat → Byte
  | [], a => background a
  | (b, v) :: m, a => if a = b then v else get m a

/-- Set the byte at `a`, keeping the canonical form: an entry equal to the background is not listed. -/
def Memory.put : Memory → Nat → Byte → Memory
  | [], a, v => if v = background a then [] else [(a, v)]
  | (b, u) :: m, a, v =>
    if a < b then if v = background a then (b, u) :: m else (a, v) :: (b, u) :: m
    else if a = b then if v = background a then m else (a, v) :: m
    else (b, u) :: put m a v

/-- The canonical form: addresses strictly rising, all in range, no entry equal to what an unlisted address
reads as. -/
abbrev Memory.wf (m : Memory) : Prop :=
  m.Pairwise (fun p q => p.1 < q.1) ∧ ∀ p ∈ m, p.1 < memSize ∧ p.2 ≠ background p.1

/-- `MemRead(a, 1)` (R74): none for an address that is out of range. Addresses are naturals and never wrap (R71). -/
def Memory.read? (m : Memory) (a : Nat) : Option Byte :=
  if a < memSize then some (m.get a) else none

/-- `MemWrite(a, 1, v)` (R75): none for an address that is out of range; every address in range is writable (R83). -/
def Memory.write? (m : Memory) (a : Nat) (v : Byte) : Option Memory :=
  if a < memSize then some (m.put a v) else none

/-- Store a byte, or skip it where the address is out of range (fail-soft, R76). -/
def Memory.writeSoft (m : Memory) (a : Nat) (v : Byte) : Memory :=
  (m.write? a v).getD m

/-- Store bytes at `a`, `a + 1`, …, each fail-soft (R76). -/
def Memory.writeRun : Memory → Nat → List Byte → Memory
  | m, _, [] => m
  | m, a, v :: vs => writeRun (m.writeSoft a v) (a + 1) vs

/-- Read at most `n` bytes at `a`, `a + 1`, …, stopping at the first address out of range (the early stop of
spec/43_display.md R221). -/
def Memory.readRun (m : Memory) : Nat → Nat → List Byte
  | _, 0 => []
  | a, n + 1 =>
    match m.read? a with
    | some v => v :: readRun m (a + 1) n
    | none => []

/-- Some address of `a`, …, `a + n − 1` is out of range: when a data instruction that accesses these warns
`OutOfBounds` (R76, spec/60_exceptions.md R301). -/
def runOutOfBounds (a n : Nat) : Bool := 0 < n && memSize < a + n

end Sys2Proof.Machine
end

