-- ==== Sys2Proof/Machine/Operands.lean ====
section
/-! DEFINITION. Operand forms: how an immediate, a register value or `I` becomes an address, a key, a digit or a target (spec/30_encoding.md R113, spec/20_memory.md R71). -/

namespace Sys2Proof.Machine

/-- `zext_16(NNN)` (R113). -/
def zext16 (nnn : Addr) : Word := nnn.setWidth 16

/-- "register value masked to 4 bits": the key or font digit a register names (R113). -/
def lowNibble (v : Byte) : Nibble := v.extractLsb' 0 4

/-- The effective address `I + k`, an unbounded natural (spec/20_memory.md R71, D10). -/
def effAddr (i : Word) (k : Nat) : Nat := i.toNat + k

/-- The target of jump-indexed: `(NNN + V[0]) mod 65536`, not masked to 12 bits (spec/41_control.md R168, D8). -/
def indexedTarget (nnn : Addr) (v0 : Byte) : Word := BitVec.ofNat 16 (nnn.toNat + v0.toNat)

/-- The address of a digit's glyph: digit × 5 (spec/45_index_memory.md R262). -/
def glyphAddr (digit : Nibble) : Word := BitVec.ofNat 16 (digit.toNat * 5)

/-- The decimal digits of a byte: hundreds, tens, ones (spec/45_index_memory.md R263). -/
def bcdDigits (v : Byte) : List Byte :=
  [BitVec.ofNat 8 (v.toNat / 100), BitVec.ofNat 8 (v.toNat / 10 % 10), BitVec.ofNat 8 (v.toNat % 10)]

end Sys2Proof.Machine
end

