-- ==== Sys2Proof/Machine/Ops.lean ====
section
/-! DEFINITION. The operations shared by the meanings: registers, PC, call stack, display, timers, keypad, the random draw, instruction fetch, and raising a cause with the return from it. -/

namespace Sys2Proof.Machine

/-- What an instruction, an event and a step answer. -/
abbrev Result := Host.Outcome State Fault Refusal

/-! ### Registers and other single fields -/

/-- `V[x]` (spec/00_scope.md R14). -/
def State.getV (s : State) (x : Nibble) : Byte := s.V[x.toNat]'x.isLt

/-- `V[x] <- v`. -/
def State.setV (s : State) (x : Nibble) (v : Byte) : State := { s with V := s.V.set x.toNat v x.isLt }

/-- `V[F] <- (b) ? 1 : 0`. -/
def State.setFlag (s : State) (b : Bool) : State := s.setV vf (flagByte b)

/-- All general registers at once (register-load). -/
def State.setRegs (s : State) (v : Vector Byte 16) : State := { s with V := v }

/-- `I <- v`. -/
def State.setI (s : State) (v : Word) : State := { s with I := v }

/-- `PC <- target` (spec/10_state.md R38: every write is a 16-bit write). -/
def State.setPC (s : State) (target : Word) : State := { s with PC := target }

/-- `DT <- v`. -/
def State.setDT (s : State) (v : Byte) : State := { s with DT := v }

/-- `ST <- v`. -/
def State.setST (s : State) (v : Byte) : State := { s with ST := v }

/-- The Keypad, written by the input collaborator (spec/10_state.md R48). -/
def State.setKeypad (s : State) (k : Vector Bool 16) : State := { s with keypad := k }

/-- The Display Buffer. -/
def State.setDisp (s : State) (d : Display) : State := { s with disp := d }

/-- The Address Space. -/
def State.setMem (s : State) (m : Memory) : State := { s with mem := m }

/-- The lifecycle state. -/
def State.setLifecycle (s : State) (l : Lifecycle) : State := { s with lifecycle := l }

/-- The events due next. -/
def State.setPending (s : State) (es : List Event) : State := { s with pending := es }

/-- The position in strategy (b)'s interval. -/
def State.setBatchPos (s : State) (n : Nat) : State := { s with batchPos := n }

/-- The snapshot at the start of a cycle (spec/10_state.md R49). -/
def State.latchKeys (s : State) : State := { s with key := s.keypad }

/-- `key[k]`: every Keypad read of a cycle reads the snapshot (R49). -/
def State.keyDown (s : State) (k : Nibble) : Bool := s.key[k.toNat]'k.isLt

/-! ### Program counter -/

/-- The advance after a fetch, and `Skip()`: `PC <- (PC + 2) mod 65536` (spec/40_cycle.md R141, spec/41_control.md
R160). -/
def State.advance (s : State) : State := s.setPC (s.PC + 2)

/-- `if c: Skip()` (spec/41_control.md R160). -/
def State.skipIf (s : State) (c : Bool) : State := if c then s.advance else s

/-- `ipc`, while an instruction executes: PC was advanced by 2 after the fetch (spec/40_cycle.md R141, log 7). -/
def State.ipc (s : State) : Word := s.PC - 2

/-! ### Call stack -/

/-- `Push(v)` (spec/10_state.md R42): none where `SP == STACK_DEPTH`. -/
def State.push? (s : State) (v : Word) : Option State :=
  if h : s.SP.val < 16 then
    some { s with stack := s.stack.set s.SP.val v h, SP := ⟨s.SP.val + 1, by omega⟩ }
  else none

/-- `Pop()` (spec/10_state.md R43): none where `SP == 0`. The entry is not cleared. -/
def State.pop? (s : State) : Option (Word × State) :=
  if h : 0 < s.SP.val then
    some (s.stack[s.SP.val - 1]'(by omega), { s with SP := ⟨s.SP.val - 1, by omega⟩ })
  else none

/-! ### Causes, diagnostics, and pausing -/

/-- The numeric codes of spec/60_exceptions.md R300 (D27). -/
def Cause.code : Cause → Nat
  | .outOfBounds => 1
  | .stackOverflow => 2
  | .stackUnderflow => 3
  | .unrecognizedOpcode => 4
  | .fetchOutOfBounds => 5
  | .emptyRom => 16
  | .romTooLarge => 17
  | .romUnreadable => 18
  | .initFailure => 19

/-- The causes that pause the machine (R300, R306). -/
def Cause.pauses : Cause → Bool
  | .stackOverflow => true
  | .stackUnderflow => true
  | .fetchOutOfBounds => true
  | .outOfBounds => false
  | .unrecognizedOpcode => false
  | .emptyRom => false
  | .romTooLarge => false
  | .romUnreadable => false
  | .initFailure => false

/-- The warning-level causes (R312). -/
def Cause.warns : Cause → Bool
  | .outOfBounds => true
  | .unrecognizedOpcode => true
  | .stackOverflow => false
  | .stackUnderflow => false
  | .fetchOutOfBounds => false
  | .emptyRom => false
  | .romTooLarge => false
  | .romUnreadable => false
  | .initFailure => false

/-- The record's code (R312: `(code, cause, pc, opcode)`). -/
def Diagnostic.code (d : Diagnostic) : Nat := d.cause.code

/-- Put out one diagnostic (R312): nothing else changes. -/
def State.record (s : State) (d : Diagnostic) : State := { s with diag := s.diag ++ [d] }

/-- `pause()`: lifecycle Paused. "A machine that pauses during a batch runs no further cycles of it"
(spec/70_reset_and_hazards.md R371): the batch ends (log 4). -/
def State.halt (s : State) : State := { s with lifecycle := .paused, batchPos := 0 }

/-- `raise <Cause>(pc, w)`: TAKING AN EXCEPTION on this machine (R306, R310). One diagnostic is recorded; a pausing
cause also pauses. No register is saved and control goes nowhere. -/
def State.raise (s : State) (c : Cause) (pc w : Word) : State :=
  let s' := s.record ⟨c, pc, w⟩
  if c.pauses then s'.halt else s'

/-- `raise <Cause>(ipc, w)` inside an instruction: its address and its word (R312, log 7). -/
def State.raiseAt (s : State) (c : Cause) (i : Instr) : State := s.raise c s.ipc (encode i)

/-- A data instruction's `if oob: warn OutOfBounds(ipc, w)` (spec/45_index_memory.md R263 to R265). -/
def State.warnIf (s : State) (oob : Bool) (i : Instr) : State :=
  if oob then s.raiseAt .outOfBounds i else s

/-- THE RETURN from a pausing cause is `Resume` (R311, R322): Running, at the current PC, nothing else. In Running
and in Quit it does nothing (R320, R323). -/
def State.resume (s : State) : State :=
  match s.lifecycle with
  | .paused => s.setLifecycle .running
  | .running => s
  | .quit => s

/-! ### Random draws -/

/-- `rand8()`: one draw, and the state after it (spec/42_arith.md R202): the first byte standing on the input, else
the free stream's next (log 5). -/
def State.draw (s : State) : Byte × State :=
  match s.randIn with
  | b :: rest => (b, { s with randIn := rest })
  | [] => (Config.freeRand s.draws, { s with draws := s.draws + 1 })

/-! ### Instruction fetch -/

/-- `Fetch16(PC)` (spec/20_memory.md R78): none where `PC + 1 ≥ MEM_SIZE`. -/
def State.fetch (s : State) : Option Word :=
  match s.mem.read? s.PC.toNat, s.mem.read? (s.PC.toNat + 1) with
  | some hi, some lo => some (wordOfBytes hi lo)
  | _, _ => none

/-- The cycle of a fetch out of range (spec/60_exceptions.md R305): `pc` = `PC`, `opcode` = 0, PC unchanged. -/
def fetchFault (s : State) : State := s.raise .fetchOutOfBounds s.PC 0

/-- The cycle of an unrecognized word, after PC was advanced (spec/40_cycle.md R144): a no-op with a warning. -/
def unrecognizedNoOp (w : Word) (s : State) : State := s.raise .unrecognizedOpcode s.ipc w

end Sys2Proof.Machine
end

