-- ==== Sys2Proof/Machine/Arith.lean ====
section
/-! DEFINITION. Loads, arithmetic, logic, shifts and random (spec/42_arith.md). Every meaning starts with PC at ipc + 2. -/

namespace Sys2Proof.Machine

/-- The flag-setting shape: operands were read, then `V[F]` is written, then `V[X]`, so that X = F ends holding the
result (R190, D21). -/
def State.setFlagThenV (s : State) (flag : Bool) (x : Nibble) (v : Byte) : State :=
  (s.setFlag flag).setV x v

/-- 6XNN (R191). -/
def execLdImm (x : Nibble) (nn : Byte) (s : State) : Result :=
  .next (s.setV x nn)

/-- 7XNN (R192): 8-bit wraparound, no flag. -/
def execAddImm (x : Nibble) (nn : Byte) (s : State) : Result :=
  .next (s.setV x (s.getV x + nn))

/-- 8XY0 (R193). -/
def execLdReg (x y : Nibble) (s : State) : Result :=
  .next (s.setV x (s.getV y))

/-- 8XY1 (R194): VF is not reset. -/
def execOrReg (x y : Nibble) (s : State) : Result :=
  .next (s.setV x (s.getV x ||| s.getV y))

/-- 8XY2 (R195): VF is not reset. -/
def execAndReg (x y : Nibble) (s : State) : Result :=
  .next (s.setV x (s.getV x &&& s.getV y))

/-- 8XY3 (R196): VF is not reset. -/
def execXorReg (x y : Nibble) (s : State) : Result :=
  .next (s.setV x (s.getV x ^^^ s.getV y))

/-- 8XY4 (R197). -/
def execAddReg (x y : Nibble) (s : State) : Result :=
  let a := s.getV x
  let b := s.getV y
  .next (s.setFlagThenV (carryFlag a b) x (a + b))

/-- 8XY5 (R198): a − b. -/
def execSubReg (x y : Nibble) (s : State) : Result :=
  let a := s.getV x
  let b := s.getV y
  .next (s.setFlagThenV (noBorrowFlag a b) x (a - b))

/-- 8XY6 (R199): `V[X]` is the source, `V[Y]` is not read (D37). -/
def execShr (x _y : Nibble) (s : State) : Result :=
  let a := s.getV x
  .next (s.setFlagThenV (shiftedOutRight a) x (a >>> 1))

/-- 8XY7 (R200): b − a. -/
def execSubnReg (x y : Nibble) (s : State) : Result :=
  let a := s.getV x
  let b := s.getV y
  .next (s.setFlagThenV (noBorrowFlag b a) x (b - a))

/-- 8XYE (R201): `V[X]` is the source, `V[Y]` is not read (D37). -/
def execShl (x _y : Nibble) (s : State) : Result :=
  let a := s.getV x
  .next (s.setFlagThenV (shiftedOutLeft a) x (a <<< 1))

/-- CXNN (R202): one draw is consumed whatever `NN` is. -/
def execRnd (x : Nibble) (nn : Byte) (s : State) : Result :=
  let d := s.draw
  .next (d.2.setV x (d.1 &&& nn))

end Sys2Proof.Machine
end

