-- ==== Sys2Proof/Machine/Control.lean ====
section
/-! DEFINITION. Control transfer and skips (spec/41_control.md). Every meaning starts with PC at ipc + 2. -/

namespace Sys2Proof.Machine

/-- 00EE (R161). -/
def execRet (s : State) : Result :=
  match s.pop? with
  | some (target, s') => .next (s'.setPC target)
  | none => .next (s.raiseAt .stackUnderflow .ret)

/-- 1NNN (R162): an odd target is taken as is. -/
def execJp (nnn : Addr) (s : State) : Result :=
  .next (s.setPC (zext16 nnn))

/-- 2NNN (R163): the pushed value is the address after the call. -/
def execCall (nnn : Addr) (s : State) : Result :=
  match s.push? s.PC with
  | some s' => .next (s'.setPC (zext16 nnn))
  | none => .next (s.raiseAt .stackOverflow (.call nnn))

/-- 3XNN (R164). -/
def execSeImm (x : Nibble) (nn : Byte) (s : State) : Result :=
  .next (s.skipIf (s.getV x == nn))

/-- 4XNN (R165). -/
def execSneImm (x : Nibble) (nn : Byte) (s : State) : Result :=
  .next (s.skipIf (s.getV x != nn))

/-- 5XYN (R166): N is ignored (D16). -/
def execSeReg (x y _n : Nibble) (s : State) : Result :=
  .next (s.skipIf (s.getV x == s.getV y))

/-- 9XYN (R167): N is ignored (D16). -/
def execSneReg (x y _n : Nibble) (s : State) : Result :=
  .next (s.skipIf (s.getV x != s.getV y))

/-- BNNN (R168): always `V[0]`, never `V[X]`. -/
def execJpV0 (nnn : Addr) (s : State) : Result :=
  .next (s.setPC (indexedTarget nnn (s.getV 0)))

end Sys2Proof.Machine
end

