-- ==== Sys2Proof/Machine/Display.lean ====
section
/-! DEFINITION. Clear-screen and draw-sprite (spec/43_display.md). Every meaning starts with PC at ipc + 2. -/

namespace Sys2Proof.Machine

/-- The Display Buffer with every pixel false. -/
def Display.blank : Display := Vector.replicate 32 (Vector.replicate 64 false)

/-- `disp[x][y]` (spec/10_state.md R51). -/
def Display.pixel (d : Display) (x : Fin 64) (y : Fin 32) : Bool := (d[y.val])[x.val]

/-- `disp[x][y] <- b`. -/
def Display.setPixel (d : Display) (x : Fin 64) (y : Fin 32) (b : Bool) : Display :=
  d.set y.val ((d[y.val]).set x.val b)

/-- A buffer being drawn on, and whether a collision was seen. -/
abbrev Canvas := Display × Bool

/-- One sprite bit: a set bit inverts its pixel, and collides if the pixel was set (R221). -/
def drawBit (bit : Bool) (x : Fin 64) (y : Fin 32) (c : Canvas) : Canvas :=
  if bit then (c.1.setPixel x y (!c.1.pixel x y), c.2 || c.1.pixel x y) else c

/-- The sprite bits from number `b` on, `k` of them, most-significant bit first; the columns wrap (R221). -/
def drawBits (row : Byte) (x0 : Nat) (y : Fin 32) : Nat → Nat → Canvas → Canvas
  | _, 0, c => c
  | b, k + 1, c => drawBits row x0 y (b + 1) k (drawBit (row.getLsbD (7 - b)) (Fin.ofNat 64 (x0 + b)) y c)

/-- The sprite rows from number `r` on, top row first; the rows wrap (R221). -/
def drawRows (x0 y0 : Nat) : Nat → List Byte → Canvas → Canvas
  | _, [], c => c
  | r, row :: rows, c => drawRows x0 y0 (r + 1) rows (drawBits row x0 (Fin.ofNat 32 (y0 + r)) 0 8 c)

/-- 00E0 (R220): VF is unchanged. -/
def execCls (s : State) : Result :=
  .next (s.setDisp Display.blank)

/-- DXYN (R221): the origin is read before VF is written (D22); rows out of range are not drawn, and one warning is
recorded. -/
def execDrw (x y n : Nibble) (s : State) : Result :=
  let x0 := (s.getV x).toNat % 64
  let y0 := (s.getV y).toNat % 32
  let rows := s.mem.readRun s.I.toNat n.toNat
  let c := drawRows x0 y0 0 rows (s.disp, false)
  .next (((s.setDisp c.1).setFlag c.2).warnIf (runOutOfBounds s.I.toNat n.toNat) (.drw x y n))

end Sys2Proof.Machine
end

