-- ==== Sys2Proof/Machine/IndexMemory.lean ====
section
/-! DEFINITION. Index register and memory instructions (spec/45_index_memory.md). Every meaning starts with PC at ipc + 2. -/

namespace Sys2Proof.Machine

/-- `if QUIRK_LS_INC: I <- (I + X + 1) mod 65536` (R264, R265, D24). -/
def State.bumpIndex (s : State) (x : Nibble) : State :=
  if s.cfg.quirkLsInc then s.setI (s.I + BitVec.ofNat 16 (x.toNat + 1)) else s

/-- `V[0]`..`V[X]`, in order. -/
def State.regsTo (s : State) (x : Nibble) : List Byte := s.V.toList.take (x.toNat + 1)

/-- The loads of FX65 into `V[0]`..`V[n − 1]`: a register whose byte is out of range is left unchanged (R265). -/
def loadRegs (m : Memory) (base : Word) (v : Vector Byte 16) : Nat → Vector Byte 16
  | 0 => v
  | n + 1 =>
    let v' := loadRegs m base v n
    match m.read? (effAddr base n) with
    | some b => v'.setIfInBounds n b
    | none => v'

/-- ANNN (R260, D17). -/
def execLdI (nnn : Addr) (s : State) : Result :=
  .next (s.setI (zext16 nnn))

/-- FX1E (R261): the sum is taken before the quirk writes VF. -/
def execAddI (x : Nibble) (s : State) : Result :=
  let v := s.getV x
  let s' := if s.cfg.quirkFx1eFlag then s.setFlag (indexOverflowFlag s.I v) else s
  .next (s'.setI (s.I + v.setWidth 16))

/-- FX29 (R262). -/
def execLdF (x : Nibble) (s : State) : Result :=
  .next (s.setI (glyphAddr (lowNibble (s.getV x))))

/-- FX33 (R263): `I` is unchanged whatever the quirk. -/
def execLdB (x : Nibble) (s : State) : Result :=
  .next ((s.setMem (s.mem.writeRun (effAddr s.I 0) (bcdDigits (s.getV x)))).warnIf
    (runOutOfBounds (effAddr s.I 0) 3) (.ldB x))

/-- FX55 (R264). -/
def execDump (x : Nibble) (s : State) : Result :=
  .next (((s.setMem (s.mem.writeRun (effAddr s.I 0) (s.regsTo x))).warnIf
    (runOutOfBounds (effAddr s.I 0) (x.toNat + 1)) (.dump x)).bumpIndex x)

/-- FX65 (R265). -/
def execLoad (x : Nibble) (s : State) : Result :=
  .next (((s.setRegs (loadRegs s.mem s.I s.V (x.toNat + 1))).warnIf
    (runOutOfBounds (effAddr s.I 0) (x.toNat + 1)) (.load x)).bumpIndex x)

end Sys2Proof.Machine
end

