-- ==== Sys2Proof/Machine/KeysTimers.lean ====
section
/-! DEFINITION. Keypad and timer instructions (spec/44_keys_timers.md). Every meaning starts with PC at ipc + 2. -/

namespace Sys2Proof.Machine

/-- EX9E (R240). -/
def execSkp (x : Nibble) (s : State) : Result :=
  .next (s.skipIf (s.keyDown (lowNibble (s.getV x))))

/-- EXA1 (R241). -/
def execSknp (x : Nibble) (s : State) : Result :=
  .next (s.skipIf (!s.keyDown (lowNibble (s.getV x))))

/-- FX07 (R242). -/
def execLdVxDt (x : Nibble) (s : State) : Result :=
  .next (s.setV x s.DT)

/-- FX15 (R243). -/
def execLdDtVx (x : Nibble) (s : State) : Result :=
  .next (s.setDT (s.getV x))

/-- FX18 (R244). -/
def execLdStVx (x : Nibble) (s : State) : Result :=
  .next (s.setST (s.getV x))

/-- "scan Keypad ascending": the lowest key set among the last `n` keys (R245). -/
def State.scanKeys (s : State) : Nat → Option Nibble
  | 0 => none
  | n + 1 =>
    let k : Nibble := BitVec.ofNat 4 (15 - n)
    if s.keyDown k then some k else s.scanKeys n

/-- The lowest key set in the snapshot (R245). -/
def State.lowestKey (s : State) : Option Nibble := s.scanKeys 16

/-- FX0A (R245): the lowest key set, or PC rolled back by 2. -/
def execLdVxK (x : Nibble) (s : State) : Result :=
  match s.lowestKey with
  | some k => .next (s.setV x (k.setWidth 8))
  | none => .next (s.setPC (s.PC - 2))

end Sys2Proof.Machine
end

