-- ==== Sys2Proof/WellFormed.lean ====
section
/-! DEFINITION. The checks on programs. An `Instr` needs no check of its own to be encodable: its operands have exactly the widths of the fields that hold them, so every term is an instruction of the ISA. What can be ill-formed is a ROM image (spec/70_reset_and_hazards.md R350, R351) and, for a program that keeps the obligations of R379, the target of a jump or a call. -/

namespace Sys2Proof

/-- A ROM image that `Load` accepts: 1 to 3584 bytes (R350, R351). An odd length is accepted (R351). -/
def romWellFormed (rom : List Byte) : Bool :=
  0 < rom.length && rom.length ≤ maxRom

/-- R379: "jump, call and return only to even addresses no higher than 0xFFE". The even addresses of a 12-bit
field are all at most 0xFFE. The hardware does not check this (spec/20_memory.md R79). -/
def targetWellFormed (nnn : Addr) : Bool := nnn.toNat % 2 == 0

/-- The part of R379 that the instruction's own word decides: an absolute jump or call has a well-formed target.
An instruction that is not well-formed in this sense still runs; every theorem that does not name this check
holds for it too. -/
def Instr.wellFormed : Instr → Bool
  | .jp nnn => targetWellFormed nnn
  | .call nnn => targetWellFormed nnn
  | .cls => true
  | .ret => true
  | .seImm _ _ => true
  | .sneImm _ _ => true
  | .seReg _ _ _ => true
  | .ldImm _ _ => true
  | .addImm _ _ => true
  | .ldReg _ _ => true
  | .orReg _ _ => true
  | .andReg _ _ => true
  | .xorReg _ _ => true
  | .addReg _ _ => true
  | .subReg _ _ => true
  | .shr _ _ => true
  | .subnReg _ _ => true
  | .shl _ _ => true
  | .sneReg _ _ _ => true
  | .ldI _ => true
  | .jpV0 _ => true
  | .rnd _ _ => true
  | .drw _ _ _ => true
  | .skp _ => true
  | .sknp _ => true
  | .ldVxDt _ => true
  | .ldVxK _ => true
  | .ldDtVx _ => true
  | .ldStVx _ => true
  | .addI _ => true
  | .ldF _ => true
  | .ldB _ => true
  | .dump _ => true
  | .load _ => true

end Sys2Proof
end

