-- ==== Sys2Proof/Machine/Events.lean ====
section
/-! DEFINITION. The events other than a cycle, and the Scheduler's choice of the next event (spec/60_exceptions.md, spec/70_reset_and_hazards.md). An event that is not enabled in the current lifecycle state changes nothing (log 2). -/

namespace Sys2Proof.Machine

/-- A timer counts down by 1, never below 0 (spec/60_exceptions.md R330). -/
def countDown (t : Byte) : Byte := if t.toNat > 0 then t - 1 else t

/-- `Tick` (R330): enabled only in Running (R331, D32: the timers are frozen while Paused). -/
def State.tick (s : State) : State :=
  match s.lifecycle with
  | .running => (s.setDT (countDown s.DT)).setST (countDown s.ST)
  | .paused => s
  | .quit => s

/-- `Pause` (R320). -/
def State.pauseSignal (s : State) : State :=
  match s.lifecycle with
  | .running => s.halt
  | .paused => s
  | .quit => s

/-- `Quit` (R320, R323). -/
def State.quitSignal (s : State) : State := s.setLifecycle .quit

/-- `KeyWrite(k, b)` (spec/10_state.md R48): also while Paused (R321), not after Quit (R323). -/
def State.keyWrite (s : State) (k : Nibble) (down : Bool) : State :=
  match s.lifecycle with
  | .running => s.setKeypad (s.keypad.set k.toNat down k.isLt)
  | .paused => s.setKeypad (s.keypad.set k.toNat down k.isLt)
  | .quit => s

/-- The load status (spec/00_scope.md R10). -/
inductive LoadStatus where
  | ok
  | emptyRom
  | romTooLarge
  deriving DecidableEq, Repr

/-- The length checks of `Load`, made before anything is built (spec/70_reset_and_hazards.md R350). -/
def loadStatus (rom : List Byte) : LoadStatus :=
  if rom.length = 0 then .emptyRom
  else if rom.length > maxRom then .romTooLarge
  else .ok

/-- The state a successful `Load` leaves (R350, R59): everything at its reset value, the font and then the ROM
copied in. The parameters, the inputs that wait and the diagnostics already put out are not machine state (log 24). -/
def State.loaded (rom : List Byte) (s : State) : State :=
  { State.resetWith s.cfg with
    mem := Memory.writeRun [] progBase rom
    diag := s.diag
    pending := s.pending
    randIn := s.randIn
    draws := s.draws }

/-- `Load(rom)` (R350), enabled in every lifecycle state (spec/60_exceptions.md R320). -/
def State.loadRom (rom : List Byte) (s : State) : Result :=
  match loadStatus rom with
  | .emptyRom => .fault .emptyRom
  | .romTooLarge => .fault .romTooLarge
  | .ok => .next (s.loaded rom)

/-- The collaborators' startup errors abort the startup (spec/60_exceptions.md R307). -/
def startupFault : StartupReport → Fault
  | .romUnreadable => .romUnreadable
  | .initFailure => .initFailure

/-- The cause a fault stands for (R300). -/
def Fault.cause : Fault → Cause
  | .emptyRom => .emptyRom
  | .romTooLarge => .romTooLarge
  | .romUnreadable => .romUnreadable
  | .initFailure => .initFailure

/-- The Scheduler's next event, and the state in which it happens (spec/70_reset_and_hazards.md R370): the first one
due in `pending`; with none due, strategy (a) runs one cycle, and strategy (b) runs its batch of cycles, then one
tick (R371, log 1, log 4). -/
def State.nextEvent (s : State) : Event × State :=
  match s.pending with
  | e :: rest => (e, s.setPending rest)
  | [] =>
    match s.cfg.sched with
    | .a => (.cycle, s)
    | .b =>
      match s.lifecycle with
      | .running =>
        if s.batchPos < s.cfg.batch then (.cycle, s.setBatchPos (s.batchPos + 1))
        else (.tick, s.setBatchPos 0)
      | .paused => (.cycle, s)
      | .quit => (.cycle, s)

end Sys2Proof.Machine
end

