-- ==== Sys2Proof/Machine/Step.lean ====
section
/-! DEFINITION. One step is one event (spec/00_scope.md R4): the cycle of spec/40_cycle.md R140, or another event. -/

namespace Sys2Proof.Machine

/-- What follows the fetch of the word `w` (R140): PC is advanced, the word decoded and executed; an unrecognized word
is a no-op with a warning (R144). -/
def cycleWord (w : Word) (s : State) : Result :=
  match decodeWord w with
  | .ok i => exec i s.advance
  | .error _ => .next (unrecognizedNoOp w s.advance)

/-- The body of an enabled `Cycle` event (R140): snapshot, fetch, then the word. -/
def cycle (s : State) : Result :=
  match s.latchKeys.fetch with
  | some w => cycleWord w s.latchKeys
  | none => .next (fetchFault s.latchKeys)

/-- A `Cycle` event: enabled only in Running (R140, spec/10_state.md R53). -/
def cycleEvent (s : State) : Result :=
  match s.lifecycle with
  | .running => cycle s
  | .paused => .next s
  | .quit => .next s

/-- One event (R4). -/
def happen (e : Event) (s : State) : Result :=
  match e with
  | .cycle => cycleEvent s
  | .tick => .next s.tick
  | .pause => .next s.pauseSignal
  | .resume => .next s.resume
  | .quit => .next s.quitSignal
  | .keyWrite k down => .next (s.keyWrite k down)
  | .load rom => s.loadRom rom
  | .startupFailed why => .fault (startupFault why)

/-- One step: the Scheduler's next event happens. -/
def step (s : State) : Host.Outcome State Fault Refusal :=
  happen s.nextEvent.1 s.nextEvent.2

/-- The address the next fetch reads, or the entry point where PC is out of range. -/
def State.fetchAddr (s : State) : Word := if s.PC.toNat + 1 < memSize then s.PC else 0x200

/-- For the host: `s` with an instruction word stored where the next step fetches, and everything that this step
needs so as to run it: the machine Running, a PC that can be fetched from, a Cycle event due first (log 25). -/
def State.withFetchWord (s : State) (nbits w : Nat) : State :=
  let word : Word := BitVec.ofNat 16 (w % 2 ^ nbits)
  { s with
    PC := s.fetchAddr
    lifecycle := .running
    pending := .cycle :: s.pending
    mem := s.mem.writeRun s.fetchAddr.toNat [hiByte word, loByte word] }

end Sys2Proof.Machine
end

