-- ==== Sys2Proof/Safety.lean ====
section
/-! DEFINITION. The terms claims are stated in: the invariant that every step keeps, frames, what an instruction may write, what a sprite covers, runs with their inputs and their fairness, and how a run ends. -/

namespace Sys2Proof.Machine

/-! ### The invariant -/

/-- What every step keeps. The bounds on PC and on the live stack entries are those of spec/10_state.md R38; the
codes are the runtime causes of spec/60_exceptions.md R300. -/
structure State.Inv (s : State) : Prop where
  /-- memory is in its canonical form, and lists only addresses in range -/
  mem_wf : s.mem.wf
  /-- PC never passes the largest jump-indexed target, 0x0FFF + 0xFF -/
  pc_le : s.PC.toNat ≤ 0x10FE
  /-- a live return address is the address after a word that was fetched: at most 0x1000 -/
  stack_le : ∀ j : Fin 16, j.val < s.SP.val → s.stack[j.val].toNat ≤ 0x1000
  /-- every diagnostic put out is of a runtime cause -/
  diag_runtime : ∀ d ∈ s.diag, 1 ≤ d.code ∧ d.code ≤ 5
  /-- the position in a batch never passes its length -/
  batch_le : s.batchPos ≤ s.cfg.batch

/-- "always even-valued while control flow is valid" (spec/10_state.md R30): PC and the live return addresses are
even. -/
structure State.EvenFlow (s : State) : Prop where
  pc_even : s.PC.toNat % 2 = 0
  stack_even : ∀ j : Fin 16, j.val < s.SP.val → s.stack[j.val].toNat % 2 = 0

/-! ### Frames -/

/-- Every address reads as before (`MemRead`, spec/20_memory.md R74). -/
def SameMemory (s t : State) : Prop := ∀ a, t.mem.read? a = s.mem.read? a

/-- Only the general registers differ, and register `r` now holds `f r`; every other field is as before. -/
structure RegsBecome (s t : State) (f : Nibble → Byte) : Prop where
  regs : ∀ r, t.getV r = f r
  rest : t = { s with V := t.V }
  memory : SameMemory s t

/-- Only PC differs, and it now holds `target`. -/
structure PcBecomes (s t : State) (target : Word) : Prop where
  rest : t = { s with PC := target }
  memory : SameMemory s t

/-- The general registers an instruction may write in state `s`: the table of spec/10_state.md R33, with its two
conditions ("FX0A only when a key is pressed", FX1E "only when `QUIRK_FX1E_FLAG`"). -/
def mayWriteV (s : State) : Instr → Nibble → Prop
  | .ldImm x _, r => r = x
  | .addImm x _, r => r = x
  | .ldReg x _, r => r = x
  | .orReg x _, r => r = x
  | .andReg x _, r => r = x
  | .xorReg x _, r => r = x
  | .addReg x _, r => r = vf ∨ r = x
  | .subReg x _, r => r = vf ∨ r = x
  | .shr x _, r => r = vf ∨ r = x
  | .subnReg x _, r => r = vf ∨ r = x
  | .shl x _, r => r = vf ∨ r = x
  | .rnd x _, r => r = x
  | .drw _ _ _, r => r = vf
  | .ldVxDt x, r => r = x
  | .ldVxK x, r => (∃ k : Fin 16, s.key[k.val] = true) ∧ r = x
  | .addI _, r => s.cfg.quirkFx1eFlag = true ∧ r = vf
  | .load x, r => r.toNat ≤ x.toNat
  | .cls, _ => False
  | .ret, _ => False
  | .jp _, _ => False
  | .call _, _ => False
  | .seImm _ _, _ => False
  | .sneImm _ _, _ => False
  | .seReg _ _ _, _ => False
  | .sneReg _ _ _, _ => False
  | .ldI _, _ => False
  | .jpV0 _, _ => False
  | .skp _, _ => False
  | .sknp _, _ => False
  | .ldDtVx _, _ => False
  | .ldStVx _, _ => False
  | .ldF _, _ => False
  | .ldB _, _ => False
  | .dump _, _ => False

/-! ### What a sprite covers -/

/-- DXYN in state `s` has a set sprite bit on the pixel: some row `r < N` whose byte is in range and some bit `b < 8`,
counted from the most significant, fall on it (spec/43_display.md R221, R223). -/
def SpriteCovers (s : State) (x y n : Nibble) (px : Fin 64) (py : Fin 32) : Prop :=
  ∃ r b row, r < n.toNat ∧ b < 8 ∧ s.mem.read? (s.I.toNat + r) = some row ∧ row.getLsbD (7 - b) = true ∧
    px.val = ((s.getV x).toNat % 64 + b) % 64 ∧ py.val = ((s.getV y).toNat % 32 + r) % 32

/-! ### Runs -/

/-- The inputs of a run come in between steps: events that become due join the end of `pending`. -/
def State.receive (s : State) (es : List Event) : State := { s with pending := s.pending ++ es }

/-- A run that never stops: before step `n` the events `arrivals n` become due. -/
def IsRun (σ : Nat → State) (arrivals : Nat → List Event) : Prop :=
  ∀ n, step ((σ n).receive (arrivals n)) = .next (σ (n + 1))

/-- The event that step `n` of a run is. -/
def eventAt (σ : Nat → State) (arrivals : Nat → List Event) (n : Nat) : Event :=
  ((σ n).receive (arrivals n)).nextEvent.1

/-- Weak fairness (spec/70_reset_and_hazards.md R370, D33): while the machine stays Running, both `Cycle` and `Tick`
keep occurring. A step does not enforce it; it is a condition on runs (log 27). -/
def WeaklyFair (σ : Nat → State) (arrivals : Nat → List Event) : Prop :=
  ∀ n, (∀ m, n ≤ m → (σ m).lifecycle = .running) →
    (∃ m, n ≤ m ∧ eventAt σ arrivals m = .cycle) ∧ (∃ m, n ≤ m ∧ eventAt σ arrivals m = .tick)

/-! ### How a run ends -/

/-- The exit status of the process (spec/60_exceptions.md R307, R323). -/
inductive ExitStatus where
  | zero
  | nonZero
  deriving DecidableEq, Repr

/-- "normal termination (user quit) exits zero" (R323); a startup error exits "with a non-zero status" (R307). -/
def exitStatus : Result → Option ExitStatus
  | .next s =>
    match s.lifecycle with
    | .quit => some .zero
    | .running => none
    | .paused => none
  | .fault _ => some .nonZero
  | .refused _ => none

end Sys2Proof.Machine
end

