-- ==== Sys2Proof/Certificates/Slice0/Obligations.lean ====
section
/-! DEFINITION. The statements for the provers. Each docstring names the rule it formalises; where it rests on a decision of the spec's own (D<n>) or of the model (log <n>), it says so. -/

open Sys2Proof Sys2Proof.Machine

/-! ### Encoding -/

/-- Words written out from the patterns of R115 (general knowledge, D14) decode to their instructions: a few with
their operands as numbers, and the patterns of the loads, the logic and the immediate skips with any operands.
Log entry 13. -/
def Obligations.SpecWordsDecode : Prop :=
  decodeWord 0x00E0#16 = .ok .cls ∧
  decodeWord 0x00EE#16 = .ok .ret ∧
  decodeWord 0x1234#16 = .ok (.jp 0x234#12) ∧
  decodeWord 0x5123#16 = .ok (.seReg 0x1#4 0x2#4 0x3#4) ∧
  decodeWord 0x6005#16 = .ok (.ldImm 0x0#4 0x05#8) ∧
  decodeWord 0x8124#16 = .ok (.addReg 0x1#4 0x2#4) ∧
  decodeWord 0xC30F#16 = .ok (.rnd 0x3#4 0x0F#8) ∧
  decodeWord 0xD015#16 = .ok (.drw 0x0#4 0x1#4 0x5#4) ∧
  decodeWord 0xE29E#16 = .ok (.skp 0x2#4) ∧
  decodeWord 0xF429#16 = .ok (.ldF 0x4#4) ∧
  decodeWord 0x0123#16 = .error (.unrecognized 0x0123#16) ∧
  (∀ (x : Nibble) (nn : Byte),
    decodeWord (0x3#4 ++ x ++ nn) = .ok (.seImm x nn) ∧
    decodeWord (0x4#4 ++ x ++ nn) = .ok (.sneImm x nn) ∧
    decodeWord (0x6#4 ++ x ++ nn) = .ok (.ldImm x nn) ∧
    decodeWord (0x7#4 ++ x ++ nn) = .ok (.addImm x nn)) ∧
  (∀ x y : Nibble,
    decodeWord (0x8#4 ++ x ++ y ++ 0x0#4) = .ok (.ldReg x y) ∧
    decodeWord (0x8#4 ++ x ++ y ++ 0x1#4) = .ok (.orReg x y) ∧
    decodeWord (0x8#4 ++ x ++ y ++ 0x2#4) = .ok (.andReg x y) ∧
    decodeWord (0x8#4 ++ x ++ y ++ 0x3#4) = .ok (.xorReg x y))

/-- Decoding the two bytes of any instruction gives it back, with every operand at every value, and leaves the bytes
after it (R110, R112, R115; D13, D14). Log entry 13. -/
def Obligations.DecodeOfEncode : Prop :=
  ∀ (i : Instr) (rest : List Byte), decode (encodeBytes i ++ rest) = .ok (i, rest)

/-- A word that decodes to an instruction is that instruction's only word (R112, R115; D13, D14). Log entry 13. -/
def Obligations.EncodeOfDecode : Prop :=
  ∀ (w : Word) (i : Instr), decodeWord w = .ok i → encode i = w

/-- "A word selects row r iff `(w & mask_r) == match_r`. No word matches two rows" (R115; D14, and the second sentence
is marked derived). Log entry 13. -/
def Obligations.RecognizedIffOneRowSelects : Prop :=
  (∀ w : Word, (∃ i, decodeWord w = .ok i) ↔ ∃ r ∈ opcodeRows, r.selects w = true) ∧
  (∀ w : Word, ∀ r₁ ∈ opcodeRows, ∀ r₂ ∈ opcodeRows, r₁.selects w = true → r₂.selects w = true → r₁ = r₂)

/-- The unrecognized words are exactly the four classes of R118 (D15, D16, D18). Log entry 14. -/
def Obligations.UnrecognizedWordsAreTheFourClasses : Prop :=
  ∀ w : Word, decodeWord w = .error (.unrecognized w) ↔
    (w.toNat < 0x1000 ∧ w ≠ 0x00E0#16 ∧ w ≠ 0x00EE#16) ∨
    (w.toNat / 0x1000 = 0x8 ∧ w.toNat % 0x10 ∈ [0x8, 0x9, 0xA, 0xB, 0xC, 0xD, 0xF]) ∨
    (w.toNat / 0x1000 = 0xE ∧ w.toNat % 0x100 ∉ [0x9E, 0xA1]) ∨
    (w.toNat / 0x1000 = 0xF ∧ w.toNat % 0x100 ∉ [0x07, 0x0A, 0x15, 0x18, 0x1E, 0x29, 0x33, 0x55, 0x65])

/-! ### The cycle -/

/-- A step whose event is a cycle runs the decoded instruction: the snapshot is taken, the word is read big-endian at
PC, PC is advanced by 2, and the instruction's meaning runs on that state (R140, R141, R143, R77; D6).
Log entry 22. -/
def Obligations.StepRunsDecodedInstruction : Prop :=
  ∀ (s t : State) (hi lo : Byte) (i : Instr),
    s.nextEvent = (.cycle, t) → t.lifecycle = .running →
    t.mem.read? t.PC.toNat = some hi → t.mem.read? (t.PC.toNat + 1) = some lo →
    decodeWord (hi ++ lo) = .ok i →
    step s = exec i { t with key := t.keypad, PC := t.PC + 2 }

/-- An unrecognized word only advances PC and records one warning-level diagnostic, code 4; 0x0000 is such a word
(R144). The model follows the spec's own decisions and inferences for the set of such words and 0x0000 among them (D18),
for the code 4 (D27), and for the snapshot that every cycle takes (D6). Log entries 14, 21 and 22. -/
def Obligations.UnrecognizedWordIsNoOp : Prop :=
  decodeWord 0x0000#16 = .error (.unrecognized 0x0000#16) ∧
  Cause.code .unrecognizedOpcode = 4 ∧ Cause.warns .unrecognizedOpcode = true ∧
  ∀ (s t : State) (hi lo : Byte),
    s.nextEvent = (.cycle, t) → t.lifecycle = .running →
    t.mem.read? t.PC.toNat = some hi → t.mem.read? (t.PC.toNat + 1) = some lo →
    decodeWord (hi ++ lo) = .error (.unrecognized (hi ++ lo)) →
    step s = .next { t with
      key := t.keypad
      PC := t.PC + 2
      diag := t.diag ++ [⟨.unrecognizedOpcode, t.PC, hi ++ lo⟩] }

/-- A fetch with `PC + 1 ≥ MEM_SIZE` records code 5 with opcode 0, leaves PC, and pauses the machine (R78, R305; the
spec's decision D9). That pausing ends the batch is log 4. Log entry 16. -/
def Obligations.FetchOutOfRangePauses : Prop :=
  Cause.code .fetchOutOfBounds = 5 ∧
  ∀ (s t : State), s.nextEvent = (.cycle, t) → t.lifecycle = .running → 4096 ≤ t.PC.toNat + 1 →
    step s = .next { t with
      key := t.keypad
      lifecycle := .paused
      batchPos := 0
      diag := t.diag ++ [⟨.fetchOutOfBounds, t.PC, 0⟩] }

/-- A `Cycle` event is enabled only in Running (R53, R140): with nothing due, a machine that is Paused or Quit stays
exactly as it is (that the step then answers the same state is log 2). -/
def Obligations.NoCycleUnlessRunning : Prop :=
  ∀ (s : State), s.lifecycle ≠ .running →
    (s.pending = [] → step s = .next s) ∧
    (∀ rest, s.pending = .cycle :: rest → step s = .next { s with pending := rest })

/-- A store is seen by the next fetch (R92, R376; D12), stated of the model's own loader of one word (log 25): the
very next step runs the instruction whose word was stored at the fetch address. Log entry 17. -/
def Obligations.StoredWordIsFetchedNext : Prop :=
  ∀ (s : State) (i : Instr), s.mem.wf →
    step (s.withFetchWord 16 (encode i).toNat) =
      exec i { s with
        key := s.keypad
        PC := s.fetchAddr + 2
        lifecycle := .running
        mem := s.mem.writeRun s.fetchAddr.toNat [hiByte (encode i), loByte (encode i)] }

/-! ### Loads, arithmetic, logic, shifts, random -/

/-- R191: load-immediate writes NN to V[X] and nothing else. That the word 6XNN is this instruction is in
SpecWordsDecode. -/
def Obligations.LoadImmediateWritesRegister : Prop :=
  ∀ (x : Nibble) (nn : Byte) (s : State),
    ∃ t, exec (.ldImm x nn) s = .next t ∧ RegsBecome s t fun r => if r = x then nn else s.getV r

/-- R192: add-immediate adds with 8-bit wraparound and no flag. That the word 7XNN is this instruction is in
SpecWordsDecode. -/
def Obligations.AddImmediateWrapsWithoutFlag : Prop :=
  ∀ (x : Nibble) (nn : Byte) (s : State),
    ∃ t, exec (.addImm x nn) s = .next t ∧
      RegsBecome s t fun r =>
        if r = x then BitVec.ofNat 8 (((s.getV x).toNat + nn.toNat) % 256) else s.getV r

/-- R193, R194, R195, R196: copy, OR, AND, XOR write V[X] bit by bit, update no flag, and change nothing else.
That the words 8XY0 to 8XY3 are these instructions is in SpecWordsDecode. -/
def Obligations.CopyAndLogicWriteDestinationOnly : Prop :=
  ∀ (x y : Nibble) (s : State),
    (∃ t, exec (.ldReg x y) s = .next t ∧ RegsBecome s t fun r => if r = x then s.getV y else s.getV r) ∧
    (∃ t, exec (.orReg x y) s = .next t ∧ RegsBecome s t (fun r => if r = x then t.getV x else s.getV r) ∧
        ∀ k, (t.getV x).getLsbD k = ((s.getV x).getLsbD k || (s.getV y).getLsbD k)) ∧
    (∃ t, exec (.andReg x y) s = .next t ∧ RegsBecome s t (fun r => if r = x then t.getV x else s.getV r) ∧
        ∀ k, (t.getV x).getLsbD k = ((s.getV x).getLsbD k && (s.getV y).getLsbD k)) ∧
    (∃ t, exec (.xorReg x y) s = .next t ∧ RegsBecome s t (fun r => if r = x then t.getV x else s.getV r) ∧
        ∀ k, (t.getV x).getLsbD k = ((s.getV x).getLsbD k ^^ (s.getV y).getLsbD k))

/-- R197: carry to VF, then the sum mod 256 to V[X]; the spec's decision D21 (R190) says that X = F ends with the
result. Log entry 15. -/
def Obligations.AddRegistersSetsCarry : Prop :=
  ∀ (x y : Nibble) (s : State),
    ∃ t, exec (.addReg x y) s = .next t ∧
      RegsBecome s t fun r =>
        if r = x then BitVec.ofNat 8 (((s.getV x).toNat + (s.getV y).toNat) % 256)
        else if r = vf then (if (s.getV x).toNat + (s.getV y).toNat > 255 then 1 else 0)
        else s.getV r

/-- R198 and R200: no-borrow to VF, then the difference mod 256 to V[X], in both directions; X = F by D21.
Log entry 15. -/
def Obligations.SubtractionsSetNoBorrow : Prop :=
  ∀ (x y : Nibble) (s : State),
    (∃ t, exec (.subReg x y) s = .next t ∧
      RegsBecome s t fun r =>
        if r = x then BitVec.ofNat 8 ((256 + (s.getV x).toNat - (s.getV y).toNat) % 256)
        else if r = vf then (if (s.getV x).toNat ≥ (s.getV y).toNat then 1 else 0)
        else s.getV r) ∧
    (∃ t, exec (.subnReg x y) s = .next t ∧
      RegsBecome s t fun r =>
        if r = x then BitVec.ofNat 8 ((256 + (s.getV y).toNat - (s.getV x).toNat) % 256)
        else if r = vf then (if (s.getV y).toNat ≥ (s.getV x).toNat then 1 else 0)
        else s.getV r)

/-- R199 and R201: the bit shifted out to VF, then the shifted value to V[X]. That V[X] is the source is the spec's
decision D37; X = F is D21. Log entry 15. -/
def Obligations.ShiftsSetTheBitShiftedOut : Prop :=
  ∀ (x y : Nibble) (s : State),
    (∃ t, exec (.shr x y) s = .next t ∧
      RegsBecome s t fun r =>
        if r = x then BitVec.ofNat 8 ((s.getV x).toNat / 2)
        else if r = vf then BitVec.ofNat 8 ((s.getV x).toNat % 2)
        else s.getV r) ∧
    (∃ t, exec (.shl x y) s = .next t ∧
      RegsBecome s t fun r =>
        if r = x then BitVec.ofNat 8 ((s.getV x).toNat * 2 % 256)
        else if r = vf then BitVec.ofNat 8 ((s.getV x).toNat / 128)
        else s.getV r)

/-- R202: one draw is consumed and masked by NN, whatever NN is (D23). A draw stands on the input, or comes from the
free stream, of which nothing is claimed (log 5). -/
def Obligations.RandomMasksOneDraw : Prop :=
  ∀ (x : Nibble) (nn : Byte) (s : State),
    ∃ t, exec (.rnd x nn) s = .next t ∧
      (∀ b rest, s.randIn = b :: rest →
        RegsBecome { s with randIn := rest } t fun r => if r = x then b &&& nn else s.getV r) ∧
      (s.randIn = [] →
        ∃ b, RegsBecome { s with draws := s.draws + 1 } t fun r => if r = x then b &&& nn else s.getV r)

/-! ### Control transfer -/

/-- R162: 1NNN sets PC to NNN, and changes nothing else. An odd NNN is taken as is by the spec's decision D7 (R79); the
pattern 1NNN is its general knowledge D14. Log entries 13 and 16. -/
def Obligations.JumpSetsPc : Prop :=
  ∀ (nnn : Addr) (s : State),
    decodeWord (0x1#4 ++ nnn) = .ok (.jp nnn) ∧
    ∃ t, exec (.jp nnn) s = .next t ∧ PcBecomes s t (BitVec.ofNat 16 nnn.toNat)

/-- R168: BNNN sets PC to NNN + V[0], not masked to 12 bits (the spec's decision D8). Log entry 16. -/
def Obligations.JumpIndexedAddsV0 : Prop :=
  ∀ (nnn : Addr) (s : State),
    ∃ t, exec (.jpV0 nnn) s = .next t ∧
      PcBecomes s t (BitVec.ofNat 16 (nnn.toNat + (s.getV 0).toNat)) ∧
      t.PC.toNat = nnn.toNat + (s.getV 0).toNat

/-- R164, R165: the immediate skips pass over one more word iff V[X] equals, or does not equal, NN. That the words 3XNN
and 4XNN are these instructions is in SpecWordsDecode. -/
def Obligations.ImmediateSkips : Prop :=
  ∀ (x : Nibble) (nn : Byte) (s : State),
    (∃ t, exec (.seImm x nn) s = .next t ∧ PcBecomes s t (if s.getV x = nn then s.PC + 2 else s.PC)) ∧
    (∃ t, exec (.sneImm x nn) s = .next t ∧ PcBecomes s t (if s.getV x = nn then s.PC else s.PC + 2))

/-- R166, R167: 5XYN and 9XYN pass over one more word iff V[X] equals, or does not equal, V[Y], whatever N is (the
spec's decision D16). Log entry 14. -/
def Obligations.RegisterSkipsIgnoreN : Prop :=
  ∀ (x y n : Nibble) (s : State),
    (∃ t, exec (.seReg x y n) s = .next t ∧
      PcBecomes s t (if s.getV x = s.getV y then s.PC + 2 else s.PC)) ∧
    (∃ t, exec (.sneReg x y n) s = .next t ∧
      PcBecomes s t (if s.getV x = s.getV y then s.PC else s.PC + 2))

/-- R163, R42: a call below the capacity pushes PC (the address after the call), and jumps; no other stack entry and
nothing else changes. The capacity is the spec's decision D2. Log entry 11. -/
def Obligations.CallPushesAndJumps : Prop :=
  ∀ (nnn : Addr) (s : State) (h : s.SP.val < 16),
    ∃ t, exec (.call nnn) s = .next t ∧
      t.SP.val = s.SP.val + 1 ∧ t.PC.toNat = nnn.toNat ∧
      t.stack[s.SP.val]'h = s.PC ∧
      (∀ j : Fin 16, j.val ≠ s.SP.val → t.stack[j.val] = s.stack[j.val]) ∧
      t = { s with PC := t.PC, SP := t.SP, stack := t.stack } ∧ SameMemory s t

/-- R302, R145: a call on a full stack pushes nothing, leaves PC and SP, records code 2 with the call's address and
word, and pauses (D26). That pausing ends the batch is log 4. Log entry 18. -/
def Obligations.CallOnFullStackPauses : Prop :=
  Cause.code .stackOverflow = 2 ∧
  ∀ (nnn : Addr) (s : State), s.SP.val = 16 →
    exec (.call nnn) s = .next { s with
      lifecycle := .paused
      batchPos := 0
      diag := s.diag ++ [⟨.stackOverflow, s.PC - 2, 0x2#4 ++ nnn⟩] }

/-- R161, R43: a return pops the newest entry into PC, does not clear it, and changes nothing else. -/
def Obligations.ReturnPopsIntoPc : Prop :=
  ∀ (s : State) (h : 0 < s.SP.val),
    ∃ t, exec .ret s = .next t ∧
      t.SP.val = s.SP.val - 1 ∧ t.PC = s.stack[s.SP.val - 1]'(by omega) ∧
      t = { s with PC := t.PC, SP := t.SP } ∧ SameMemory s t

/-- R303, R145: a return on an empty stack pops nothing, leaves PC and SP, records code 3, and pauses (D26). That
pausing ends the batch is log 4. Log entry 18. -/
def Obligations.ReturnOnEmptyStackPauses : Prop :=
  Cause.code .stackUnderflow = 3 ∧
  ∀ (s : State), s.SP.val = 0 →
    exec .ret s = .next { s with
      lifecycle := .paused
      batchPos := 0
      diag := s.diag ++ [⟨.stackUnderflow, s.PC - 2, 0x00EE#16⟩] }

/-- A return undoes a call: after CALL and then RET, PC is the address after the call, SP is as before the call, and
every entry below it is as before (R161, R163). -/
def Obligations.ReturnUndoesCall : Prop :=
  ∀ (nnn : Addr) (s : State), s.SP.val < 16 →
    ∃ t u, exec (.call nnn) s = .next t ∧ exec .ret t = .next u ∧
      u.PC = s.PC ∧ u.SP = s.SP ∧ (∀ j : Fin 16, j.val < s.SP.val → u.stack[j.val] = s.stack[j.val])

/-! ### Display -/

/-- R220: 00E0 makes every pixel false and changes nothing else, VF included. That no other word of family 0 is
clear-screen is the spec's decision D15 (R116). Log entry 14. -/
def Obligations.ClearScreenBlanksEveryPixel : Prop :=
  (∀ w : Word, decodeWord w = .ok .cls ↔ w = 0x00E0#16) ∧
  ∀ s : State, ∃ t, exec .cls s = .next t ∧
    (∀ x y, t.disp.pixel x y = false) ∧ t = { s with disp := t.disp } ∧ SameMemory s t

/-- R221, R222, R223: DXYN inverts exactly the pixels that a set sprite bit in range covers, coordinates wrapping; VF
becomes 1 iff some covered pixel was set, else 0; one `OutOfBounds` record iff some row is out of range; nothing else
changes. That the origin is read before VF is written is the spec's decision D22, that addresses do not wrap D10.
Log entries 15 and 17. -/
def Obligations.DrawSpriteIsXorWithCollision : Prop :=
  ∀ (x y n : Nibble) (s : State),
    ∃ t, exec (.drw x y n) s = .next t ∧
      (∀ px py, ¬ SpriteCovers s x y n px py → t.disp.pixel px py = s.disp.pixel px py) ∧
      (∀ px py, SpriteCovers s x y n px py → t.disp.pixel px py = !s.disp.pixel px py) ∧
      ((∃ px py, SpriteCovers s x y n px py ∧ s.disp.pixel px py = true) → t.getV vf = 1) ∧
      ((¬ ∃ px py, SpriteCovers s x y n px py ∧ s.disp.pixel px py = true) → t.getV vf = 0) ∧
      (∀ r, r ≠ vf → t.getV r = s.getV r) ∧
      t.diag = (if 0 < n.toNat ∧ 4096 < s.I.toNat + n.toNat
        then s.diag ++ [⟨.outOfBounds, s.PC - 2, 0xD#4 ++ x ++ y ++ n⟩] else s.diag) ∧
      t = { s with V := t.V, disp := t.disp, diag := t.diag } ∧ SameMemory s t

/-- R224: the identical sprite drawn twice at the identical origin restores the buffer exactly, "and the second draw's
flag reflects collision with the first draw's result": it is 1 iff some covered pixel was clear before the first draw,
which set it. X = F and Y = F are shut out by the rule itself. R224's last derived sentence (the second flag is 1 iff
the sprite has a set bit in range) follows where no covered pixel was set before; it does not follow from R221
otherwise, and this statement follows R221 (log 29). -/
def Obligations.DrawTwiceRestoresBuffer : Prop :=
  ∀ (x y n : Nibble) (s : State), x ≠ vf → y ≠ vf →
    ∃ t u, exec (.drw x y n) s = .next t ∧ exec (.drw x y n) t = .next u ∧
      u.disp = s.disp ∧
      ((∃ px py, SpriteCovers s x y n px py ∧ s.disp.pixel px py = false) → u.getV vf = 1) ∧
      ((¬ ∃ px py, SpriteCovers s x y n px py ∧ s.disp.pixel px py = false) → u.getV vf = 0)

/-! ### Keypad and timers -/

/-- R240, R241: EX9E and EXA1 pass over one more word iff the key named by the low 4 bits of V[X] is down, or up, in
the cycle's snapshot. Reading the snapshot is the spec's decision D6, the patterns are its general knowledge D14.
Log entries 13 and 22. -/
def Obligations.KeySkipsReadSnapshot : Prop :=
  ∀ (x : Nibble) (s : State) (k : Fin 16), (s.getV x).toNat % 16 = k.val →
    (decodeWord (0xE#4 ++ x ++ 0x9E#8) = .ok (.skp x) ∧
      ∃ t, exec (.skp x) s = .next t ∧
        PcBecomes s t (if s.key[k.val] = true then s.PC + 2 else s.PC)) ∧
    (decodeWord (0xE#4 ++ x ++ 0xA1#8) = .ok (.sknp x) ∧
      ∃ t, exec (.sknp x) s = .next t ∧
        PcBecomes s t (if s.key[k.val] = true then s.PC else s.PC + 2))

/-- R245: with a key down, FX0A writes the lowest such key to V[X] and nothing else; with none, it rolls PC back by 2
and changes nothing else. Reading the snapshot is the spec's decision D6, the pattern FX0A its general knowledge D14.
Log entries 13 and 22. -/
def Obligations.WaitForKeyTakesLowestOrRollsBack : Prop :=
  ∀ (x : Nibble) (s : State),
    decodeWord (0xF#4 ++ x ++ 0x0A#8) = .ok (.ldVxK x) ∧
    (∀ k : Fin 16, s.key[k.val] = true → (∀ j : Fin 16, j < k → s.key[j.val] = false) →
      ∃ t, exec (.ldVxK x) s = .next t ∧
        RegsBecome s t fun r => if r = x then BitVec.ofNat 8 k.val else s.getV r) ∧
    ((∀ k : Fin 16, s.key[k.val] = false) →
      ∃ t, exec (.ldVxK x) s = .next t ∧ PcBecomes s t (s.PC - 2))

/-- R242, R243, R244: FX07 copies DT to V[X]; FX15 and FX18 copy V[X] to DT and to ST; nothing else changes. The
patterns are the spec's general knowledge D14. Log entry 13. -/
def Obligations.TimerTransfersCopy : Prop :=
  ∀ (x : Nibble) (s : State),
    (decodeWord (0xF#4 ++ x ++ 0x07#8) = .ok (.ldVxDt x) ∧
      ∃ t, exec (.ldVxDt x) s = .next t ∧ RegsBecome s t fun r => if r = x then s.DT else s.getV r) ∧
    (decodeWord (0xF#4 ++ x ++ 0x15#8) = .ok (.ldDtVx x) ∧
      ∃ t, exec (.ldDtVx x) s = .next t ∧ t = { s with DT := s.getV x } ∧ SameMemory s t) ∧
    (decodeWord (0xF#4 ++ x ++ 0x18#8) = .ok (.ldStVx x) ∧
      ∃ t, exec (.ldStVx x) s = .next t ∧ t = { s with ST := s.getV x } ∧ SameMemory s t)

/-! ### Index register and memory -/

/-- R260: ANNN sets I to NNN and changes nothing else (the spec's decision D17). Log entry 13. -/
def Obligations.SetIndexLoadsAddress : Prop :=
  ∀ (nnn : Addr) (s : State),
    ∃ t, exec (.ldI nnn) s = .next t ∧ t.I.toNat = nnn.toNat ∧ t = { s with I := t.I } ∧ SameMemory s t

/-- R261: FX1E adds V[X] to I mod 65536; with the quirk VF becomes 1 iff the sum passes 0x0FFF, else 0 (D25), read
before VF is written; without it no register changes. Log entry 20. -/
def Obligations.AddToIndexUnderBothQuirks : Prop :=
  ∀ (x : Nibble) (s : State),
    ∃ t, exec (.addI x) s = .next t ∧
      t.I = BitVec.ofNat 16 ((s.I.toNat + (s.getV x).toNat) % 65536) ∧
      (s.cfg.quirkFx1eFlag = false → t = { s with I := t.I }) ∧
      (s.cfg.quirkFx1eFlag = true →
        t = { s with I := t.I, V := t.V } ∧
        ∀ r, t.getV r =
          if r = vf then (if s.I.toNat + (s.getV x).toNat > 0x0FFF then 1 else 0) else s.getV r) ∧
      SameMemory s t

/-- R262: FX29 sets I to 5 times the low 4 bits of V[X], at most 75, and changes nothing else. FX29 is
one of the three words the source itself spells (R115). -/
def Obligations.FontPointerIsDigitTimesFive : Prop :=
  ∀ (x : Nibble) (s : State),
    decodeWord (0xF#4 ++ x ++ 0x29#8) = .ok (.ldF x) ∧
    ∃ t, exec (.ldF x) s = .next t ∧ t.I.toNat = (s.getV x).toNat % 16 * 5 ∧ t.I.toNat ≤ 75 ∧
      t = { s with I := t.I } ∧ SameMemory s t

/-- R263: FX33 stores the hundreds, tens and ones digits of V[X] at I, I + 1, I + 2, as far as these are in range;
every other address reads as before; one `OutOfBounds` record iff I + 2 is out of range (D20); I and the rest are
unchanged whatever the quirk. Log entry 21. -/
def Obligations.StoreBcdWritesThreeDigits : Prop :=
  ∀ (x : Nibble) (s : State), s.mem.wf →
    ∃ t, exec (.ldB x) s = .next t ∧
      (∀ a, a < 4096 → a = s.I.toNat →
        t.mem.read? a = some (BitVec.ofNat 8 ((s.getV x).toNat / 100))) ∧
      (∀ a, a < 4096 → a = s.I.toNat + 1 →
        t.mem.read? a = some (BitVec.ofNat 8 ((s.getV x).toNat / 10 % 10))) ∧
      (∀ a, a < 4096 → a = s.I.toNat + 2 →
        t.mem.read? a = some (BitVec.ofNat 8 ((s.getV x).toNat % 10))) ∧
      (∀ a, a < s.I.toNat ∨ s.I.toNat + 3 ≤ a → t.mem.read? a = s.mem.read? a) ∧
      t.diag = (if 4096 ≤ s.I.toNat + 2
        then s.diag ++ [⟨.outOfBounds, s.PC - 2, 0xF#4 ++ x ++ 0x33#8⟩] else s.diag) ∧
      t = { s with mem := t.mem, diag := t.diag }

/-- R264: FX55 stores V[0]..V[X] at I..I + X, as far as these are in range; every other address reads as before; one
`OutOfBounds` record iff I + X is out of range (D20); with the quirk I advances by X + 1, also when bytes were
skipped (D24); nothing else changes. Log entries 20 and 21. -/
def Obligations.RegisterDumpStoresAscending : Prop :=
  ∀ (x : Nibble) (s : State), s.mem.wf →
    ∃ t, exec (.dump x) s = .next t ∧
      (∀ r : Nibble, r.toNat ≤ x.toNat → s.I.toNat + r.toNat < 4096 →
        t.mem.read? (s.I.toNat + r.toNat) = some (s.getV r)) ∧
      (∀ a, a < s.I.toNat ∨ s.I.toNat + x.toNat + 1 ≤ a → t.mem.read? a = s.mem.read? a) ∧
      t.I = (if s.cfg.quirkLsInc = true then BitVec.ofNat 16 ((s.I.toNat + x.toNat + 1) % 65536) else s.I) ∧
      t.diag = (if 4096 ≤ s.I.toNat + x.toNat
        then s.diag ++ [⟨.outOfBounds, s.PC - 2, 0xF#4 ++ x ++ 0x55#8⟩] else s.diag) ∧
      t = { s with mem := t.mem, I := t.I, diag := t.diag }

/-- R265: FX65 loads V[0]..V[X] from I..I + X; a register whose address is out of range, and every register above X,
is unchanged; one `OutOfBounds` record iff I + X is out of range (D20); with the quirk I advances by X + 1 (D24);
nothing else changes, and no byte of memory does. Log entries 20 and 21. -/
def Obligations.RegisterLoadReadsAscending : Prop :=
  ∀ (x : Nibble) (s : State),
    ∃ t, exec (.load x) s = .next t ∧
      (∀ (r : Nibble) (b : Byte), r.toNat ≤ x.toNat → s.mem.read? (s.I.toNat + r.toNat) = some b → t.getV r = b) ∧
      (∀ r : Nibble, x.toNat < r.toNat ∨ 4096 ≤ s.I.toNat + r.toNat → t.getV r = s.getV r) ∧
      t.I = (if s.cfg.quirkLsInc = true then BitVec.ofNat 16 ((s.I.toNat + x.toNat + 1) % 65536) else s.I) ∧
      t.diag = (if 4096 ≤ s.I.toNat + x.toNat
        then s.diag ++ [⟨.outOfBounds, s.PC - 2, 0xF#4 ++ x ++ 0x65#8⟩] else s.diag) ∧
      t = { s with V := t.V, I := t.I, diag := t.diag } ∧ SameMemory s t

/-- Registers dumped in range and loaded back by the same X are restored, whatever they held in between; with the
quirk off, since the quirk moves I (R264, R265; D24). Log entry 20. -/
def Obligations.DumpThenLoadRestoresRegisters : Prop :=
  ∀ (x : Nibble) (s : State) (v : Vector Byte 16), s.mem.wf → s.cfg.quirkLsInc = false →
    s.I.toNat + x.toNat < 4096 →
    ∃ t u, exec (.dump x) s = .next t ∧ exec (.load x) { t with V := v } = .next u ∧
      ∀ r : Nibble, r.toNat ≤ x.toNat → u.getV r = s.getV r

/-! ### Events -/

/-- R330: while Running, a tick decrements each timer by exactly 1, never below 0, and changes nothing else. -/
def Obligations.TickDecrementsBothTimers : Prop :=
  ∀ (s t : State), s.nextEvent = (.tick, t) → t.lifecycle = .running →
    ∃ u, step s = .next u ∧
      u.DT.toNat = t.DT.toNat - 1 ∧ u.ST.toNat = t.ST.toNat - 1 ∧
      u = { t with DT := u.DT, ST := u.ST }

/-- R321, R331: no tick is applied while Paused (the spec's decision D32, log 19), nor after Quit (R323, D31, log 18).
That a tick which is not enabled is taken off, and the step answers the state without it, is the model's choice
(log 2). -/
def Obligations.TimersFrozenUnlessRunning : Prop :=
  ∀ (s t : State), s.nextEvent = (.tick, t) → t.lifecycle ≠ .running → step s = .next t

/-- R320, R321, R322, R323: every transition the lifecycle signals make, and that they change nothing else (D31); that
a signal which is not enabled is taken off without effect is log 2, that pausing ends the batch log 4. Log entry 18. -/
def Obligations.LifecycleSignals : Prop :=
  ∀ (s t : State),
    (s.nextEvent = (.pause, t) →
      step s = .next (if t.lifecycle = .running then { t with lifecycle := .paused, batchPos := 0 } else t)) ∧
    (s.nextEvent = (.resume, t) →
      step s = .next (if t.lifecycle = .paused then { t with lifecycle := .running } else t)) ∧
    (s.nextEvent = (.quit, t) → step s = .next { t with lifecycle := .quit })

/-- R48: `KeyWrite(k, b)` sets Keypad flag k to b, also while Paused (R321), and changes nothing else. -/
def Obligations.KeyWriteSetsOneFlag : Prop :=
  ∀ (s t : State) (k : Nibble) (b : Bool), s.nextEvent = (.keyWrite k b, t) → t.lifecycle ≠ .quit →
    ∃ u, step s = .next u ∧
      (∀ j : Fin 16, u.keypad[j.val] = if j.val = k.toNat then b else t.keypad[j.val]) ∧
      u = { t with keypad := u.keypad }

/-- R350, R351, R59: a load of 1 to 3584 bytes rebuilds the machine: the font, the ROM from 0x200, zeros elsewhere,
every register at its reset value, Running. The zeros are the spec's decision D4, Running D5; that waiting inputs,
parameters and past diagnostics stay is log 24. Log entry 8. -/
def Obligations.LoadRebuildsTheMachine : Prop :=
  ∀ (s t : State) (rom : List Byte), s.nextEvent = (.load rom, t) → 1 ≤ rom.length → rom.length ≤ 3584 →
    ∃ u, step s = .next u ∧
      (∀ (k : Nat) (h : k < rom.length), u.mem.read? (0x200 + k) = some rom[k]) ∧
      (∀ a, a < 0x200 ∨ 0x200 + rom.length ≤ a → u.mem.read? a = State.reset.mem.read? a) ∧
      (∀ a, 4096 ≤ a → u.mem.read? a = none) ∧
      u = { State.reset with
        mem := u.mem, cfg := t.cfg, diag := t.diag, pending := t.pending, randIn := t.randIn, draws := t.draws }

/-- R350, R351, R300: a ROM of length 0 fails with `EmptyRom` (16), one longer than 3584 bytes with `RomTooLarge` (17),
and nothing is built. -/
def Obligations.LoadRefusesBadLengths : Prop :=
  Cause.code (Fault.cause .emptyRom) = 16 ∧ Cause.code (Fault.cause .romTooLarge) = 17 ∧
  ∀ (s t : State) (rom : List Byte), s.nextEvent = (.load rom, t) →
    (rom.length = 0 → step s = .fault .emptyRom) ∧ (3584 < rom.length → step s = .fault .romTooLarge)

/-- R309, R370, R371: the Scheduler's choice of the next event, whole. An event that is due is next, whichever it is,
and only leaves the queue (the queue is the model's own field, log 1). With none due: strategy (a) runs one cycle;
strategy (b) runs, while Running, `floor(IPS / 60)` cycles and then one tick (D34; the count of cycles so far is the
model's own field, log 4), and otherwise idles in a cycle that is not enabled (log 2). Log entry 3. -/
def Obligations.BatchThenTick : Prop :=
  ∀ (s : State),
    (∀ e rest, s.pending = e :: rest → s.nextEvent = (e, { s with pending := rest })) ∧
    (s.pending = [] → s.cfg.sched = .a → s.nextEvent = (.cycle, s)) ∧
    (s.pending = [] → s.cfg.sched = .b → s.lifecycle = .running →
      (s.batchPos < s.cfg.ips / 60 → s.nextEvent = (.cycle, { s with batchPos := s.batchPos + 1 })) ∧
      (s.cfg.ips / 60 ≤ s.batchPos → s.nextEvent = (.tick, { s with batchPos := 0 }))) ∧
    (s.pending = [] → s.cfg.sched = .b → s.lifecycle ≠ .running → s.nextEvent = (.cycle, s))

/-! ### Reset -/

/-- R39, and the reset value of R52: after reset, and after every `Load` that succeeds, PC is 0x200 and every pixel is
false. -/
def Obligations.ResetPcAndDisplay : Prop :=
  (State.reset.PC = 0x200 ∧ ∀ x y, State.reset.disp.pixel x y = false) ∧
  ∀ (s t : State) (rom : List Byte), s.nextEvent = (.load rom, t) → 1 ≤ rom.length → rom.length ≤ 3584 →
    ∃ u, step s = .next u ∧ u.PC = 0x200 ∧ ∀ x y, u.disp.pixel x y = false

/-- R59: the rest of the reset state (the spec's decisions D4 and D5, log 8), the snapshot, for which the spec gives
no value (log 22), and the font bytes of R85 (general knowledge, D35, log 10). -/
def Obligations.ResetRegistersAndFont : Prop :=
  (∀ r, State.reset.getV r = 0) ∧ State.reset.I = 0 ∧ State.reset.SP = 0 ∧
  (∀ j : Fin 16, State.reset.stack[j.val] = 0) ∧ State.reset.DT = 0 ∧ State.reset.ST = 0 ∧
  (∀ k : Fin 16, State.reset.keypad[k.val] = false) ∧ (∀ k : Fin 16, State.reset.key[k.val] = false) ∧
  State.reset.lifecycle = .running ∧
  (∀ a, 80 ≤ a → a < 4096 → State.reset.mem.read? a = some 0) ∧
  (List.range 80).map (fun a => (State.reset.mem.read? a).map BitVec.toNat) =
    ([0xF0, 0x90, 0x90, 0x90, 0xF0, 0x20, 0x60, 0x20, 0x20, 0x70, 0xF0, 0x10, 0xF0, 0x80, 0xF0,
      0xF0, 0x10, 0xF0, 0x10, 0xF0, 0x90, 0x90, 0xF0, 0x10, 0x10, 0xF0, 0x80, 0xF0, 0x10, 0xF0,
      0xF0, 0x80, 0xF0, 0x90, 0xF0, 0xF0, 0x10, 0x20, 0x40, 0x40].map some ++
     [0xF0, 0x90, 0xF0, 0x90, 0xF0, 0xF0, 0x90, 0xF0, 0x10, 0xF0, 0xF0, 0x90, 0xF0, 0x90, 0x90,
      0xE0, 0x90, 0xE0, 0x90, 0xE0, 0xF0, 0x80, 0x80, 0x80, 0xF0, 0xE0, 0x90, 0x90, 0x90, 0xE0,
      0xF0, 0x80, 0xF0, 0x80, 0xF0, 0xF0, 0x80, 0xF0, 0x80, 0x80].map some)

/-! ### Rules over the whole machine -/

/-- Every step keeps the invariant: memory canonical and in range; PC at most 0x10FE and live return addresses at most
0x1000 (R38, so that a 16-bit wrap of PC is never reached); diagnostics only of runtime causes (R300); the batch
position within the batch. -/
def Obligations.StepKeepsInvariant : Prop :=
  ∀ s t : State, s.Inv → step s = .next t → t.Inv

/-- The reset state meets the invariant, with no live return address (R44), no diagnostic put out (log 6) and at the
start of a batch (log 4). -/
def Obligations.ResetMeetsInvariant : Prop :=
  State.reset.Inv ∧ State.reset.SP = 0 ∧ State.reset.diag = [] ∧ State.reset.batchPos = 0

/-- No step is refused, and a step stops a run exactly on a startup error, under that error's own name (R307, R300):
a load of a bad length, or the collaborators' report of an unreadable ROM (code 18) or a failed initialization (code
19). The codes are the spec's decision D27; that the errors are the model's faults, and the report an event, is
log 23. Log entry 21. -/
def Obligations.OnlyStartupErrorsStop : Prop :=
  Cause.code (Fault.cause .romUnreadable) = 18 ∧ Cause.code (Fault.cause .initFailure) = 19 ∧
  ∀ s : State, (∀ r, step s ≠ .refused r) ∧
    ∀ f, step s = .fault f ↔
      (∃ rom rest, s.pending = .load rom :: rest ∧
        ((rom.length = 0 ∧ f = .emptyRom) ∨ (3584 < rom.length ∧ f = .romTooLarge))) ∨
      (∃ why rest, s.pending = .startupFailed why :: rest ∧
        ((why = .romUnreadable ∧ f = .romUnreadable) ∨ (why = .initFailure ∧ f = .initFailure)))

/-- R320: only these leave Running: `Pause` and `Quit`, a fetch out of range, a call on a full stack, a return on an
empty one. -/
def Obligations.OnlyTheseLeaveRunning : Prop :=
  ∀ s t : State, s.lifecycle = .running → step s = .next t → t.lifecycle ≠ .running →
    (s.nextEvent.1 = .quit ∧ t.lifecycle = .quit) ∨
    (t.lifecycle = .paused ∧
      (s.nextEvent.1 = .pause ∨
       (s.nextEvent.1 = .cycle ∧
        (4096 ≤ s.PC.toNat + 1 ∨
         ∃ hi lo, s.mem.read? s.PC.toNat = some hi ∧ s.mem.read? (s.PC.toNat + 1) = some lo ∧
          ((s.SP.val = 16 ∧ ∃ nnn, decodeWord (hi ++ lo) = .ok (.call nnn)) ∨
           (s.SP.val = 0 ∧ decodeWord (hi ++ lo) = .ok .ret))))))

/-- R56: the parameters are fixed; no step changes them. -/
def Obligations.ParametersNeverChange : Prop :=
  ∀ s t : State, step s = .next t → t.cfg = s.cfg

/-- R73: FX33 and FX55 are the only instructions that change a byte of memory. -/
def Obligations.OnlyBcdAndDumpStore : Prop :=
  ∀ (i : Instr) (s t : State), exec i s = .next t → (∀ x, i ≠ .ldB x) → (∀ x, i ≠ .dump x) → SameMemory s t

/-- R33: a general register changes only where the rule's table says the instruction writes it: FX0A's V[X] only when
a key is pressed, FX1E's VF only under the quirk (D14, D17, D21). Log entries 13 and 15. -/
def Obligations.RegisterWritersAreTheTable : Prop :=
  ∀ (i : Instr) (s t : State) (r : Nibble), exec i s = .next t → ¬ mayWriteV s i r → t.getV r = s.getV r

/-- R35, R41, R45, R47, R51: which instructions may change I, SP and the stack, the timers, the display; and that none
changes the Keypad or the snapshot. -/
def Obligations.EveryFieldHasItsWriters : Prop :=
  ∀ (i : Instr) (s t : State), exec i s = .next t →
    (t.I ≠ s.I → (∃ nnn, i = .ldI nnn) ∨ (∃ x, i = .addI x ∨ i = .ldF x) ∨
      (s.cfg.quirkLsInc = true ∧ ∃ x, i = .dump x ∨ i = .load x)) ∧
    (t.SP ≠ s.SP → i = .ret ∨ ∃ nnn, i = .call nnn) ∧
    (t.stack ≠ s.stack → ∃ nnn, i = .call nnn) ∧
    (t.DT ≠ s.DT → ∃ x, i = .ldDtVx x) ∧
    (t.ST ≠ s.ST → ∃ x, i = .ldStVx x) ∧
    (t.disp ≠ s.disp → i = .cls ∨ ∃ x y n, i = .drw x y n) ∧
    t.keypad = s.keypad ∧ t.key = s.key

/-- R45, R244: no instruction reads ST. Changing ST beforehand changes nothing but ST afterwards; and FX18, which writes
ST, leaves the same state whatever ST was. -/
def Obligations.SoundTimerIsNeverRead : Prop :=
  (∀ (i : Instr) (s t : State) (v : Byte), (∀ x, i ≠ .ldStVx x) → exec i s = .next t →
    exec i { s with ST := v } = .next { t with ST := v }) ∧
  ∀ (x : Nibble) (s : State) (v : Byte), exec (.ldStVx x) { s with ST := v } = exec (.ldStVx x) s

/-- R308, R312: an instruction records at most one diagnostic, with its own address and word, and past records stay
(the record's form is the spec's decision D20). Log entry 21. -/
def Obligations.AtMostOneDiagnosticPerInstruction : Prop :=
  ∀ (i : Instr) (s t : State), exec i s = .next t →
    t.diag = s.diag ∨ ∃ c, t.diag = s.diag ++ [⟨c, s.PC - 2, encode i⟩] ∧ 1 ≤ c.code ∧ c.code ≤ 3

/-- R30, R37: PC stays even while control flow is valid: from even PC and even live return addresses, an instruction
whose own target is even leaves them even (R379). -/
def Obligations.EvenFlowIsKept : Prop :=
  ∀ (i : Instr) (s t : State), s.EvenFlow → i.wellFormed = true →
    (∀ nnn, i = .jpV0 nnn → (nnn.toNat + (s.getV 0).toNat) % 2 = 0) →
    exec i s = .next t → t.EvenFlow

/-- R330, R331, R370: in every weakly fair run that stays Running and in which no step raises DT, the delay timer
reaches 0. Weak fairness is the
spec's decision D33, a condition on runs and not on steps (log 27). -/
def Obligations.FairRunTimerReachesZero : Prop :=
  ∀ (σ : Nat → State) (arrivals : Nat → List Event),
    IsRun σ arrivals → WeaklyFair σ arrivals → (∀ n, (σ n).lifecycle = .running) →
    (∀ n, (σ (n + 1)).DT.toNat ≤ (σ n).DT.toNat) →
    ∃ n, (σ n).DT = 0
end

