-- ==== Sys2Proof/Laws/Decode.lean ====
section
/-! SUPPORT. The fields of the words the encoder builds, and of a word put back together from its fields. -/

namespace Sys2Proof

open BitVec (extractLsb'_append_eq_left extractLsb'_append_eq_right extractLsb'_append_eq_of_le
  extractLsb'_append_eq_of_add_le extractLsb'_append_extractLsb'_eq_extractLsb')

/-! ### Fields of an encoded word -/

@[simp] theorem opField_wordXNN (op x : Nibble) (nn : Byte) : opField (wordXNN op x nn) = op :=
  (extractLsb'_append_eq_of_le (by omega)).trans extractLsb'_append_eq_left

@[simp] theorem xField_wordXNN (op x : Nibble) (nn : Byte) : xField (wordXNN op x nn) = x :=
  (extractLsb'_append_eq_of_le (by omega)).trans extractLsb'_append_eq_right

@[simp] theorem nnField_wordXNN (op x : Nibble) (nn : Byte) : nnField (wordXNN op x nn) = nn :=
  extractLsb'_append_eq_right

@[simp] theorem opField_wordXYN (op x y n : Nibble) : opField (wordXYN op x y n) = op :=
  (extractLsb'_append_eq_of_le (by omega)).trans
    ((extractLsb'_append_eq_of_le (by omega)).trans extractLsb'_append_eq_left)

@[simp] theorem xField_wordXYN (op x y n : Nibble) : xField (wordXYN op x y n) = x :=
  (extractLsb'_append_eq_of_le (by omega)).trans
    ((extractLsb'_append_eq_of_le (by omega)).trans extractLsb'_append_eq_right)

@[simp] theorem yField_wordXYN (op x y n : Nibble) : yField (wordXYN op x y n) = y :=
  (extractLsb'_append_eq_of_le (by omega)).trans extractLsb'_append_eq_right

@[simp] theorem nField_wordXYN (op x y n : Nibble) : nField (wordXYN op x y n) = n :=
  extractLsb'_append_eq_right

@[simp] theorem opField_wordNNN (op : Nibble) (nnn : Addr) : opField (wordNNN op nnn) = op :=
  extractLsb'_append_eq_left

@[simp] theorem nnnField_wordNNN (op : Nibble) (nnn : Addr) : nnnField (wordNNN op nnn) = nnn :=
  extractLsb'_append_eq_right

/-! ### A word from its fields -/

theorem wordNNN_fields (w : Word) : wordNNN (opField w) (nnnField w) = w :=
  (extractLsb'_append_extractLsb'_eq_extractLsb' (by rfl)).trans BitVec.extractLsb'_eq_self

theorem wordXNN_fields (w : Word) : wordXNN (opField w) (xField w) (nnField w) = w := by
  have h : opField w ++ xField w = w.extractLsb' 8 8 := extractLsb'_append_extractLsb'_eq_extractLsb' (by rfl)
  show (opField w ++ xField w) ++ nnField w = w
  rw [h]
  exact (extractLsb'_append_extractLsb'_eq_extractLsb' (by rfl)).trans BitVec.extractLsb'_eq_self

theorem wordXYN_fields (w : Word) : wordXYN (opField w) (xField w) (yField w) (nField w) = w := by
  have h₁ : opField w ++ xField w = w.extractLsb' 8 8 := extractLsb'_append_extractLsb'_eq_extractLsb' (by rfl)
  have h₂ : w.extractLsb' 8 8 ++ yField w = w.extractLsb' 4 12 :=
    extractLsb'_append_extractLsb'_eq_extractLsb' (by rfl)
  show ((opField w ++ xField w) ++ yField w) ++ nField w = w
  rw [h₁, h₂]
  exact (extractLsb'_append_extractLsb'_eq_extractLsb' (by rfl)).trans BitVec.extractLsb'_eq_self

/-- The word of the two bytes of a word is that word. -/
@[simp] theorem wordOfBytes_hi_lo (w : Word) : wordOfBytes (hiByte w) (loByte w) = w :=
  (extractLsb'_append_extractLsb'_eq_extractLsb' (by rfl)).trans BitVec.extractLsb'_eq_self

@[simp] theorem hiByte_wordOfBytes (hi lo : Byte) : hiByte (wordOfBytes hi lo) = hi := extractLsb'_append_eq_left

@[simp] theorem loByte_wordOfBytes (hi lo : Byte) : loByte (wordOfBytes hi lo) = lo := extractLsb'_append_eq_right

/-! ### The decoder on words and on rows -/

/-- A decoded word is a decoded row. -/
theorem decodeWord_ok {w : Word} {i : Instr} : decodeWord w = .ok i ↔ decodeRow w = some i := by
  unfold decodeWord
  split <;> simp_all

/-- A word that does not decode is named by the error. -/
theorem decodeWord_error {w : Word} {e : DecodeError} :
    decodeWord w = .error e ↔ decodeRow w = none ∧ e = .unrecognized w := by
  unfold decodeWord
  cases h : decodeRow w <;> simp [eq_comm]

end Sys2Proof
end

