-- ==== Sys2Proof/Laws/Memory.lean ====
section
/-! SUPPORT. The laws of the Address Space: what a read gives after a write, and that every memory operation keeps the canonical form. -/

namespace Sys2Proof.Machine.Memory

/-- The size as a numeral, for arithmetic. -/
theorem memSize_eq : memSize = 4096 := rfl

/-- When a data instruction on the addresses `a`, …, `a + n − 1` warns. -/
theorem runOutOfBounds_iff (a n : Nat) : runOutOfBounds a n = true ↔ 0 < n ∧ 4096 < a + n := by
  simp only [runOutOfBounds, Bool.and_eq_true, decide_eq_true_eq, memSize_eq]

/-! ### One byte -/

@[simp] theorem get_nil (a : Nat) : get [] a = background a := rfl

theorem get_of_lt_all {m : Memory} {a : Nat} (h : ∀ p ∈ m, a < p.1) : m.get a = background a := by
  induction m with
  | nil => rfl
  | cons p m ih =>
    have hp := h p (by simp)
    have : a ≠ p.1 := by omega
    simpa [get, this] using ih fun q hq => h q (by simp [hq])

/-- Writing below the first listed address. -/
theorem put_below {c a : Nat} (u v : Byte) (m : Memory) (h : a < c) :
    put ((c, u) :: m) a v = if v = background a then (c, u) :: m else (a, v) :: (c, u) :: m := by
  simp only [put, if_pos h]

/-- Writing the first listed address. -/
theorem put_head (c : Nat) (u v : Byte) (m : Memory) :
    put ((c, u) :: m) c v = if v = background c then m else (c, v) :: m := by
  simp only [put, if_neg (Nat.lt_irrefl c), if_true]

/-- Writing above the first listed address. -/
theorem put_above {c a : Nat} (u v : Byte) (m : Memory) (h : c < a) :
    put ((c, u) :: m) a v = (c, u) :: put m a v := by
  simp only [put, if_neg (Nat.not_lt.mpr h.le), if_neg (Nat.ne_of_gt h)]

/-- Read after write, on a memory in rising order. -/
theorem get_put {m : Memory} (hm : m.Pairwise (fun p q => p.1 < q.1)) (a b : Nat) (v : Byte) :
    (m.put a v).get b = if b = a then v else m.get b := by
  induction m with
  | nil =>
    by_cases hv : v = background a <;> by_cases hb : b = a <;> simp [put, get, hv, hb]
  | cons p m ih =>
    obtain ⟨c, u⟩ := p
    have hall : ∀ q ∈ m, c < q.1 := (List.pairwise_cons.mp hm).1
    have ih := ih (List.pairwise_cons.mp hm).2
    rcases Nat.lt_trichotomy a c with h | rfl | h
    · -- `a` is below every listed address
      rw [put_below u v m h]
      have hall' : ∀ q ∈ (c, u) :: m, a < q.1 := by
        intro q hq
        rcases List.mem_cons.mp hq with rfl | hq
        · exact h
        · exact h.trans (hall q hq)
      by_cases hv : v = background a
      · rw [if_pos hv]
        by_cases hb : b = a
        · rw [if_pos hb, hb, hv]; exact get_of_lt_all hall'
        · rw [if_neg hb]
      · rw [if_neg hv]; rfl
    · -- `a` is the first listed address
      rw [put_head]
      by_cases hb : b = a
      · subst hb
        by_cases hv : v = background b
        · rw [if_pos hv, if_pos rfl, hv]; exact get_of_lt_all hall
        · simp [hv, get]
      · by_cases hv : v = background a <;> simp [hv, get, hb]
    · rw [put_above u v m h]
      by_cases hb : b = c
      · simp [get, hb, Nat.ne_of_lt h]
      · simp only [get, if_neg hb, ih]

/-- An address listed by a memory after a write was listed before, or is the one written. -/
theorem mem_put {m : Memory} {a : Nat} {v : Byte} {p : Host.Cell} (h : p ∈ m.put a v) :
    p ∈ m ∨ (p = (a, v) ∧ v ≠ background a) := by
  induction m with
  | nil =>
    by_cases hv : v = background a <;> simp [put, hv] at h
    exact .inr ⟨h, hv⟩
  | cons q m ih =>
    obtain ⟨c, u⟩ := q
    rcases Nat.lt_trichotomy a c with hac | rfl | hac
    · rw [put_below u v m hac] at h
      split_ifs at h with hv
      · exact .inl h
      · rcases List.mem_cons.mp h with h | h
        · exact .inr ⟨h, hv⟩
        · exact .inl h
    · rw [put_head] at h
      split_ifs at h with hv
      · exact .inl (by simp [h])
      · rcases List.mem_cons.mp h with h | h
        · exact .inr ⟨h, hv⟩
        · exact .inl (by simp [h])
    · rw [put_above u v m hac] at h
      rcases List.mem_cons.mp h with h | h
      · exact .inl (by simp [h])
      · rcases ih h with h | h
        · exact .inl (by simp [h])
        · exact .inr h

theorem put_pairwise {m : Memory} (hm : m.Pairwise (fun p q => p.1 < q.1)) (a : Nat) (v : Byte) :
    (m.put a v).Pairwise (fun p q => p.1 < q.1) := by
  induction m with
  | nil => by_cases hv : v = background a <;> simp [put, hv]
  | cons p m ih =>
    obtain ⟨c, u⟩ := p
    have hall : ∀ q ∈ m, c < q.1 := (List.pairwise_cons.mp hm).1
    have htail := (List.pairwise_cons.mp hm).2
    rcases Nat.lt_trichotomy a c with h | rfl | h
    · rw [put_below u v m h]
      split_ifs with hv
      · exact hm
      · refine List.pairwise_cons.mpr ⟨fun q hq => ?_, hm⟩
        rcases List.mem_cons.mp hq with rfl | hq
        · exact h
        · exact h.trans (hall q hq)
    · rw [put_head]
      split_ifs with hv
      · exact htail
      · exact List.pairwise_cons.mpr ⟨hall, htail⟩
    · rw [put_above u v m h]
      refine List.pairwise_cons.mpr ⟨fun q hq => ?_, ih htail⟩
      rcases mem_put hq with hq | ⟨rfl, -⟩
      · exact hall q hq
      · exact h

/-- A write in range keeps the canonical form. -/
theorem put_wf {m : Memory} (hm : m.wf) {a : Nat} (ha : a < memSize) (v : Byte) : (m.put a v).wf := by
  refine ⟨put_pairwise hm.1 a v, fun p hp => ?_⟩
  rcases mem_put hp with h | ⟨rfl, hv⟩
  · exact hm.2 p h
  · exact ⟨ha, hv⟩

/-! ### The access primitives -/

@[simp] theorem read?_of_lt (m : Memory) {a : Nat} (h : a < memSize) : m.read? a = some (m.get a) := by
  simp only [read?, if_pos h]

@[simp] theorem read?_of_ge (m : Memory) {a : Nat} (h : memSize ≤ a) : m.read? a = none := by
  simp only [read?, if_neg (Nat.not_lt.mpr h)]

theorem read?_eq_some {m : Memory} {a : Nat} {v : Byte} : m.read? a = some v ↔ a < memSize ∧ m.get a = v := by
  by_cases h : a < memSize
  · simp only [read?_of_lt m h, Option.some.injEq, h, true_and]
  · simp only [read?_of_ge m (Nat.le_of_not_lt h), reduceCtorEq, h, false_and]

theorem writeSoft_of_lt (m : Memory) {a : Nat} (h : a < memSize) (v : Byte) : m.writeSoft a v = m.put a v := by
  simp only [writeSoft, write?, if_pos h, Option.getD_some]

theorem writeSoft_of_ge (m : Memory) {a : Nat} (h : memSize ≤ a) (v : Byte) : m.writeSoft a v = m := by
  simp only [writeSoft, write?, if_neg (Nat.not_lt.mpr h), Option.getD_none]

/-- A fail-soft store keeps the canonical form. -/
theorem writeSoft_wf {m : Memory} (hm : m.wf) (a : Nat) (v : Byte) : (m.writeSoft a v).wf := by
  by_cases h : a < memSize
  · rw [writeSoft_of_lt m h]; exact put_wf hm h v
  · rw [writeSoft_of_ge m (Nat.le_of_not_lt h)]; exact hm

theorem writeSoft_pairwise {m : Memory} (hm : m.Pairwise (fun p q => p.1 < q.1)) (a : Nat) (v : Byte) :
    (m.writeSoft a v).Pairwise (fun p q => p.1 < q.1) := by
  by_cases h : a < memSize
  · rw [writeSoft_of_lt m h]; exact put_pairwise hm a v
  · rw [writeSoft_of_ge m (Nat.le_of_not_lt h)]; exact hm

/-- Read after a fail-soft store. -/
theorem read?_writeSoft {m : Memory} (hm : m.Pairwise (fun p q => p.1 < q.1)) (a b : Nat) (v : Byte) :
    (m.writeSoft a v).read? b = if b = a ∧ a < memSize then some v else m.read? b := by
  by_cases ha : a < memSize
  · rw [writeSoft_of_lt m ha]
    by_cases hb : b < memSize
    · rw [read?_of_lt _ hb, read?_of_lt _ hb, get_put hm]
      by_cases hab : b = a <;> simp [hab, ha]
    · have hne : b ≠ a := by omega
      rw [read?_of_ge _ (Nat.le_of_not_lt hb), read?_of_ge _ (Nat.le_of_not_lt hb)]
      simp [hne]
  · rw [writeSoft_of_ge m (Nat.le_of_not_lt ha)]
    simp [ha]

/-! ### Runs of bytes -/

theorem writeRun_pairwise {m : Memory} (hm : m.Pairwise (fun p q => p.1 < q.1)) (a : Nat) (vs : List Byte) :
    (m.writeRun a vs).Pairwise (fun p q => p.1 < q.1) := by
  induction vs generalizing m a with
  | nil => exact hm
  | cons v vs ih => exact ih (writeSoft_pairwise hm a v) (a + 1)

/-- A run of fail-soft stores keeps the canonical form. -/
theorem writeRun_wf {m : Memory} (hm : m.wf) (a : Nat) (vs : List Byte) : (m.writeRun a vs).wf := by
  induction vs generalizing m a with
  | nil => exact hm
  | cons v vs ih => exact ih (writeSoft_wf hm a v) (a + 1)

/-- Everything a run of stores does: an address in range that it covers reads as its byte, every other address reads
as before. -/
theorem read?_writeRun {m : Memory} (hm : m.Pairwise (fun p q => p.1 < q.1)) (a b : Nat) (vs : List Byte) :
    (m.writeRun a vs).read? b =
      if h : a ≤ b ∧ b < a + vs.length ∧ b < memSize then some (vs[b - a]'(by omega)) else m.read? b := by
  induction vs generalizing m a with
  | nil =>
    have : ¬ (a ≤ b ∧ b < a + ([] : List Byte).length ∧ b < memSize) := by simp; omega
    rw [dif_neg this]; rfl
  | cons v vs ih =>
    rw [writeRun, ih (writeSoft_pairwise hm a v), read?_writeSoft hm]
    by_cases hba : b = a
    · subst hba
      have h1 : ¬ (b + 1 ≤ b ∧ b < b + 1 + vs.length ∧ b < memSize) := by omega
      by_cases hb : b < memSize
      · simp [hb]
      · simp [hb]
    · by_cases h : a + 1 ≤ b ∧ b < a + 1 + vs.length ∧ b < memSize
      · have h' : a ≤ b ∧ b < a + (v :: vs).length ∧ b < memSize := by
          simp only [List.length_cons]; omega
        rw [dif_pos h, dif_pos h']
        have : b - a = (b - (a + 1)) + 1 := by omega
        simp [this]
      · have h' : ¬ (a ≤ b ∧ b < a + (v :: vs).length ∧ b < memSize) := by
          simp only [List.length_cons]; omega
        rw [dif_neg h, dif_neg h']
        simp [hba]

/-- A run of reads gives at most the bytes asked for. -/
theorem readRun_length_le (m : Memory) (a n : Nat) : (m.readRun a n).length ≤ n := by
  induction n generalizing a with
  | zero => simp [readRun]
  | succ n ih =>
    rw [readRun]
    split
    · simpa using ih (a + 1)
    · simp

/-- Everything a run of reads gives: byte `k` is the byte at `a + k`, as far as the addresses are in range. -/
theorem readRun_getElem? (m : Memory) (a n k : Nat) :
    (m.readRun a n)[k]? = if k < n then m.read? (a + k) else none := by
  induction n generalizing a k with
  | zero => simp [readRun]
  | succ n ih =>
    rw [readRun]
    by_cases ha : a < memSize
    · rw [read?_of_lt m ha]
      cases k with
      | zero => simp [read?_of_lt m ha]
      | succ k =>
        simp only [List.getElem?_cons_succ, ih, Nat.add_lt_add_iff_right]
        rw [show a + 1 + k = a + (k + 1) by omega]
    · rw [read?_of_ge m (Nat.le_of_not_lt ha), read?_of_ge m (by omega : memSize ≤ a + k)]
      simp

/-- The reset memory lists nothing, and is canonical. -/
theorem nil_wf : Memory.wf [] := by simp [wf]

end Sys2Proof.Machine.Memory
end

