-- ==== Sys2Proof/Laws/State.lean ====
section
/-! SUPPORT. What each update of the state leaves in each field: one lemma per field per update, true by definition, so that no later proof unfolds a record update. -/

namespace Sys2Proof.Machine.State

variable (s : State)

/-! ### `setRegs` -/

@[simp] theorem setRegs_V (v : Vector Byte 16) : (s.setRegs v).V = v := rfl
@[simp] theorem setRegs_I (v : Vector Byte 16) : (s.setRegs v).I = s.I := rfl
@[simp] theorem setRegs_PC (v : Vector Byte 16) : (s.setRegs v).PC = s.PC := rfl
@[simp] theorem setRegs_SP (v : Vector Byte 16) : (s.setRegs v).SP = s.SP := rfl
@[simp] theorem setRegs_stack (v : Vector Byte 16) : (s.setRegs v).stack = s.stack := rfl
@[simp] theorem setRegs_DT (v : Vector Byte 16) : (s.setRegs v).DT = s.DT := rfl
@[simp] theorem setRegs_ST (v : Vector Byte 16) : (s.setRegs v).ST = s.ST := rfl
@[simp] theorem setRegs_keypad (v : Vector Byte 16) : (s.setRegs v).keypad = s.keypad := rfl
@[simp] theorem setRegs_key (v : Vector Byte 16) : (s.setRegs v).key = s.key := rfl
@[simp] theorem setRegs_disp (v : Vector Byte 16) : (s.setRegs v).disp = s.disp := rfl
@[simp] theorem setRegs_mem (v : Vector Byte 16) : (s.setRegs v).mem = s.mem := rfl
@[simp] theorem setRegs_lifecycle (v : Vector Byte 16) : (s.setRegs v).lifecycle = s.lifecycle := rfl
@[simp] theorem setRegs_diag (v : Vector Byte 16) : (s.setRegs v).diag = s.diag := rfl
@[simp] theorem setRegs_cfg (v : Vector Byte 16) : (s.setRegs v).cfg = s.cfg := rfl
@[simp] theorem setRegs_batchPos (v : Vector Byte 16) : (s.setRegs v).batchPos = s.batchPos := rfl
@[simp] theorem setRegs_pending (v : Vector Byte 16) : (s.setRegs v).pending = s.pending := rfl
@[simp] theorem setRegs_randIn (v : Vector Byte 16) : (s.setRegs v).randIn = s.randIn := rfl
@[simp] theorem setRegs_draws (v : Vector Byte 16) : (s.setRegs v).draws = s.draws := rfl

/-! ### `setI` -/

@[simp] theorem setI_V (v : Word) : (s.setI v).V = s.V := rfl
@[simp] theorem setI_I (v : Word) : (s.setI v).I = v := rfl
@[simp] theorem setI_PC (v : Word) : (s.setI v).PC = s.PC := rfl
@[simp] theorem setI_SP (v : Word) : (s.setI v).SP = s.SP := rfl
@[simp] theorem setI_stack (v : Word) : (s.setI v).stack = s.stack := rfl
@[simp] theorem setI_DT (v : Word) : (s.setI v).DT = s.DT := rfl
@[simp] theorem setI_ST (v : Word) : (s.setI v).ST = s.ST := rfl
@[simp] theorem setI_keypad (v : Word) : (s.setI v).keypad = s.keypad := rfl
@[simp] theorem setI_key (v : Word) : (s.setI v).key = s.key := rfl
@[simp] theorem setI_disp (v : Word) : (s.setI v).disp = s.disp := rfl
@[simp] theorem setI_mem (v : Word) : (s.setI v).mem = s.mem := rfl
@[simp] theorem setI_lifecycle (v : Word) : (s.setI v).lifecycle = s.lifecycle := rfl
@[simp] theorem setI_diag (v : Word) : (s.setI v).diag = s.diag := rfl
@[simp] theorem setI_cfg (v : Word) : (s.setI v).cfg = s.cfg := rfl
@[simp] theorem setI_batchPos (v : Word) : (s.setI v).batchPos = s.batchPos := rfl
@[simp] theorem setI_pending (v : Word) : (s.setI v).pending = s.pending := rfl
@[simp] theorem setI_randIn (v : Word) : (s.setI v).randIn = s.randIn := rfl
@[simp] theorem setI_draws (v : Word) : (s.setI v).draws = s.draws := rfl

/-! ### `setPC` -/

@[simp] theorem setPC_V (p : Word) : (s.setPC p).V = s.V := rfl
@[simp] theorem setPC_I (p : Word) : (s.setPC p).I = s.I := rfl
@[simp] theorem setPC_PC (p : Word) : (s.setPC p).PC = p := rfl
@[simp] theorem setPC_SP (p : Word) : (s.setPC p).SP = s.SP := rfl
@[simp] theorem setPC_stack (p : Word) : (s.setPC p).stack = s.stack := rfl
@[simp] theorem setPC_DT (p : Word) : (s.setPC p).DT = s.DT := rfl
@[simp] theorem setPC_ST (p : Word) : (s.setPC p).ST = s.ST := rfl
@[simp] theorem setPC_keypad (p : Word) : (s.setPC p).keypad = s.keypad := rfl
@[simp] theorem setPC_key (p : Word) : (s.setPC p).key = s.key := rfl
@[simp] theorem setPC_disp (p : Word) : (s.setPC p).disp = s.disp := rfl
@[simp] theorem setPC_mem (p : Word) : (s.setPC p).mem = s.mem := rfl
@[simp] theorem setPC_lifecycle (p : Word) : (s.setPC p).lifecycle = s.lifecycle := rfl
@[simp] theorem setPC_diag (p : Word) : (s.setPC p).diag = s.diag := rfl
@[simp] theorem setPC_cfg (p : Word) : (s.setPC p).cfg = s.cfg := rfl
@[simp] theorem setPC_batchPos (p : Word) : (s.setPC p).batchPos = s.batchPos := rfl
@[simp] theorem setPC_pending (p : Word) : (s.setPC p).pending = s.pending := rfl
@[simp] theorem setPC_randIn (p : Word) : (s.setPC p).randIn = s.randIn := rfl
@[simp] theorem setPC_draws (p : Word) : (s.setPC p).draws = s.draws := rfl

/-! ### `setDT` -/

@[simp] theorem setDT_V (v : Byte) : (s.setDT v).V = s.V := rfl
@[simp] theorem setDT_I (v : Byte) : (s.setDT v).I = s.I := rfl
@[simp] theorem setDT_PC (v : Byte) : (s.setDT v).PC = s.PC := rfl
@[simp] theorem setDT_SP (v : Byte) : (s.setDT v).SP = s.SP := rfl
@[simp] theorem setDT_stack (v : Byte) : (s.setDT v).stack = s.stack := rfl
@[simp] theorem setDT_DT (v : Byte) : (s.setDT v).DT = v := rfl
@[simp] theorem setDT_ST (v : Byte) : (s.setDT v).ST = s.ST := rfl
@[simp] theorem setDT_keypad (v : Byte) : (s.setDT v).keypad = s.keypad := rfl
@[simp] theorem setDT_key (v : Byte) : (s.setDT v).key = s.key := rfl
@[simp] theorem setDT_disp (v : Byte) : (s.setDT v).disp = s.disp := rfl
@[simp] theorem setDT_mem (v : Byte) : (s.setDT v).mem = s.mem := rfl
@[simp] theorem setDT_lifecycle (v : Byte) : (s.setDT v).lifecycle = s.lifecycle := rfl
@[simp] theorem setDT_diag (v : Byte) : (s.setDT v).diag = s.diag := rfl
@[simp] theorem setDT_cfg (v : Byte) : (s.setDT v).cfg = s.cfg := rfl
@[simp] theorem setDT_batchPos (v : Byte) : (s.setDT v).batchPos = s.batchPos := rfl
@[simp] theorem setDT_pending (v : Byte) : (s.setDT v).pending = s.pending := rfl
@[simp] theorem setDT_randIn (v : Byte) : (s.setDT v).randIn = s.randIn := rfl
@[simp] theorem setDT_draws (v : Byte) : (s.setDT v).draws = s.draws := rfl

/-! ### `setST` -/

@[simp] theorem setST_V (v : Byte) : (s.setST v).V = s.V := rfl
@[simp] theorem setST_I (v : Byte) : (s.setST v).I = s.I := rfl
@[simp] theorem setST_PC (v : Byte) : (s.setST v).PC = s.PC := rfl
@[simp] theorem setST_SP (v : Byte) : (s.setST v).SP = s.SP := rfl
@[simp] theorem setST_stack (v : Byte) : (s.setST v).stack = s.stack := rfl
@[simp] theorem setST_DT (v : Byte) : (s.setST v).DT = s.DT := rfl
@[simp] theorem setST_ST (v : Byte) : (s.setST v).ST = v := rfl
@[simp] theorem setST_keypad (v : Byte) : (s.setST v).keypad = s.keypad := rfl
@[simp] theorem setST_key (v : Byte) : (s.setST v).key = s.key := rfl
@[simp] theorem setST_disp (v : Byte) : (s.setST v).disp = s.disp := rfl
@[simp] theorem setST_mem (v : Byte) : (s.setST v).mem = s.mem := rfl
@[simp] theorem setST_lifecycle (v : Byte) : (s.setST v).lifecycle = s.lifecycle := rfl
@[simp] theorem setST_diag (v : Byte) : (s.setST v).diag = s.diag := rfl
@[simp] theorem setST_cfg (v : Byte) : (s.setST v).cfg = s.cfg := rfl
@[simp] theorem setST_batchPos (v : Byte) : (s.setST v).batchPos = s.batchPos := rfl
@[simp] theorem setST_pending (v : Byte) : (s.setST v).pending = s.pending := rfl
@[simp] theorem setST_randIn (v : Byte) : (s.setST v).randIn = s.randIn := rfl
@[simp] theorem setST_draws (v : Byte) : (s.setST v).draws = s.draws := rfl

/-! ### `setKeypad` -/

@[simp] theorem setKeypad_V (k : Vector Bool 16) : (s.setKeypad k).V = s.V := rfl
@[simp] theorem setKeypad_I (k : Vector Bool 16) : (s.setKeypad k).I = s.I := rfl
@[simp] theorem setKeypad_PC (k : Vector Bool 16) : (s.setKeypad k).PC = s.PC := rfl
@[simp] theorem setKeypad_SP (k : Vector Bool 16) : (s.setKeypad k).SP = s.SP := rfl
@[simp] theorem setKeypad_stack (k : Vector Bool 16) : (s.setKeypad k).stack = s.stack := rfl
@[simp] theorem setKeypad_DT (k : Vector Bool 16) : (s.setKeypad k).DT = s.DT := rfl
@[simp] theorem setKeypad_ST (k : Vector Bool 16) : (s.setKeypad k).ST = s.ST := rfl
@[simp] theorem setKeypad_keypad (k : Vector Bool 16) : (s.setKeypad k).keypad = k := rfl
@[simp] theorem setKeypad_key (k : Vector Bool 16) : (s.setKeypad k).key = s.key := rfl
@[simp] theorem setKeypad_disp (k : Vector Bool 16) : (s.setKeypad k).disp = s.disp := rfl
@[simp] theorem setKeypad_mem (k : Vector Bool 16) : (s.setKeypad k).mem = s.mem := rfl
@[simp] theorem setKeypad_lifecycle (k : Vector Bool 16) : (s.setKeypad k).lifecycle = s.lifecycle := rfl
@[simp] theorem setKeypad_diag (k : Vector Bool 16) : (s.setKeypad k).diag = s.diag := rfl
@[simp] theorem setKeypad_cfg (k : Vector Bool 16) : (s.setKeypad k).cfg = s.cfg := rfl
@[simp] theorem setKeypad_batchPos (k : Vector Bool 16) : (s.setKeypad k).batchPos = s.batchPos := rfl
@[simp] theorem setKeypad_pending (k : Vector Bool 16) : (s.setKeypad k).pending = s.pending := rfl
@[simp] theorem setKeypad_randIn (k : Vector Bool 16) : (s.setKeypad k).randIn = s.randIn := rfl
@[simp] theorem setKeypad_draws (k : Vector Bool 16) : (s.setKeypad k).draws = s.draws := rfl

/-! ### `setDisp` -/

@[simp] theorem setDisp_V (d : Display) : (s.setDisp d).V = s.V := rfl
@[simp] theorem setDisp_I (d : Display) : (s.setDisp d).I = s.I := rfl
@[simp] theorem setDisp_PC (d : Display) : (s.setDisp d).PC = s.PC := rfl
@[simp] theorem setDisp_SP (d : Display) : (s.setDisp d).SP = s.SP := rfl
@[simp] theorem setDisp_stack (d : Display) : (s.setDisp d).stack = s.stack := rfl
@[simp] theorem setDisp_DT (d : Display) : (s.setDisp d).DT = s.DT := rfl
@[simp] theorem setDisp_ST (d : Display) : (s.setDisp d).ST = s.ST := rfl
@[simp] theorem setDisp_keypad (d : Display) : (s.setDisp d).keypad = s.keypad := rfl
@[simp] theorem setDisp_key (d : Display) : (s.setDisp d).key = s.key := rfl
@[simp] theorem setDisp_disp (d : Display) : (s.setDisp d).disp = d := rfl
@[simp] theorem setDisp_mem (d : Display) : (s.setDisp d).mem = s.mem := rfl
@[simp] theorem setDisp_lifecycle (d : Display) : (s.setDisp d).lifecycle = s.lifecycle := rfl
@[simp] theorem setDisp_diag (d : Display) : (s.setDisp d).diag = s.diag := rfl
@[simp] theorem setDisp_cfg (d : Display) : (s.setDisp d).cfg = s.cfg := rfl
@[simp] theorem setDisp_batchPos (d : Display) : (s.setDisp d).batchPos = s.batchPos := rfl
@[simp] theorem setDisp_pending (d : Display) : (s.setDisp d).pending = s.pending := rfl
@[simp] theorem setDisp_randIn (d : Display) : (s.setDisp d).randIn = s.randIn := rfl
@[simp] theorem setDisp_draws (d : Display) : (s.setDisp d).draws = s.draws := rfl

/-! ### `setMem` -/

@[simp] theorem setMem_V (m : Memory) : (s.setMem m).V = s.V := rfl
@[simp] theorem setMem_I (m : Memory) : (s.setMem m).I = s.I := rfl
@[simp] theorem setMem_PC (m : Memory) : (s.setMem m).PC = s.PC := rfl
@[simp] theorem setMem_SP (m : Memory) : (s.setMem m).SP = s.SP := rfl
@[simp] theorem setMem_stack (m : Memory) : (s.setMem m).stack = s.stack := rfl
@[simp] theorem setMem_DT (m : Memory) : (s.setMem m).DT = s.DT := rfl
@[simp] theorem setMem_ST (m : Memory) : (s.setMem m).ST = s.ST := rfl
@[simp] theorem setMem_keypad (m : Memory) : (s.setMem m).keypad = s.keypad := rfl
@[simp] theorem setMem_key (m : Memory) : (s.setMem m).key = s.key := rfl
@[simp] theorem setMem_disp (m : Memory) : (s.setMem m).disp = s.disp := rfl
@[simp] theorem setMem_mem (m : Memory) : (s.setMem m).mem = m := rfl
@[simp] theorem setMem_lifecycle (m : Memory) : (s.setMem m).lifecycle = s.lifecycle := rfl
@[simp] theorem setMem_diag (m : Memory) : (s.setMem m).diag = s.diag := rfl
@[simp] theorem setMem_cfg (m : Memory) : (s.setMem m).cfg = s.cfg := rfl
@[simp] theorem setMem_batchPos (m : Memory) : (s.setMem m).batchPos = s.batchPos := rfl
@[simp] theorem setMem_pending (m : Memory) : (s.setMem m).pending = s.pending := rfl
@[simp] theorem setMem_randIn (m : Memory) : (s.setMem m).randIn = s.randIn := rfl
@[simp] theorem setMem_draws (m : Memory) : (s.setMem m).draws = s.draws := rfl

/-! ### `setLifecycle` -/

@[simp] theorem setLifecycle_V (l : Lifecycle) : (s.setLifecycle l).V = s.V := rfl
@[simp] theorem setLifecycle_I (l : Lifecycle) : (s.setLifecycle l).I = s.I := rfl
@[simp] theorem setLifecycle_PC (l : Lifecycle) : (s.setLifecycle l).PC = s.PC := rfl
@[simp] theorem setLifecycle_SP (l : Lifecycle) : (s.setLifecycle l).SP = s.SP := rfl
@[simp] theorem setLifecycle_stack (l : Lifecycle) : (s.setLifecycle l).stack = s.stack := rfl
@[simp] theorem setLifecycle_DT (l : Lifecycle) : (s.setLifecycle l).DT = s.DT := rfl
@[simp] theorem setLifecycle_ST (l : Lifecycle) : (s.setLifecycle l).ST = s.ST := rfl
@[simp] theorem setLifecycle_keypad (l : Lifecycle) : (s.setLifecycle l).keypad = s.keypad := rfl
@[simp] theorem setLifecycle_key (l : Lifecycle) : (s.setLifecycle l).key = s.key := rfl
@[simp] theorem setLifecycle_disp (l : Lifecycle) : (s.setLifecycle l).disp = s.disp := rfl
@[simp] theorem setLifecycle_mem (l : Lifecycle) : (s.setLifecycle l).mem = s.mem := rfl
@[simp] theorem setLifecycle_lifecycle (l : Lifecycle) : (s.setLifecycle l).lifecycle = l := rfl
@[simp] theorem setLifecycle_diag (l : Lifecycle) : (s.setLifecycle l).diag = s.diag := rfl
@[simp] theorem setLifecycle_cfg (l : Lifecycle) : (s.setLifecycle l).cfg = s.cfg := rfl
@[simp] theorem setLifecycle_batchPos (l : Lifecycle) : (s.setLifecycle l).batchPos = s.batchPos := rfl
@[simp] theorem setLifecycle_pending (l : Lifecycle) : (s.setLifecycle l).pending = s.pending := rfl
@[simp] theorem setLifecycle_randIn (l : Lifecycle) : (s.setLifecycle l).randIn = s.randIn := rfl
@[simp] theorem setLifecycle_draws (l : Lifecycle) : (s.setLifecycle l).draws = s.draws := rfl

/-! ### `setPending` -/

@[simp] theorem setPending_V (es : List Event) : (s.setPending es).V = s.V := rfl
@[simp] theorem setPending_I (es : List Event) : (s.setPending es).I = s.I := rfl
@[simp] theorem setPending_PC (es : List Event) : (s.setPending es).PC = s.PC := rfl
@[simp] theorem setPending_SP (es : List Event) : (s.setPending es).SP = s.SP := rfl
@[simp] theorem setPending_stack (es : List Event) : (s.setPending es).stack = s.stack := rfl
@[simp] theorem setPending_DT (es : List Event) : (s.setPending es).DT = s.DT := rfl
@[simp] theorem setPending_ST (es : List Event) : (s.setPending es).ST = s.ST := rfl
@[simp] theorem setPending_keypad (es : List Event) : (s.setPending es).keypad = s.keypad := rfl
@[simp] theorem setPending_key (es : List Event) : (s.setPending es).key = s.key := rfl
@[simp] theorem setPending_disp (es : List Event) : (s.setPending es).disp = s.disp := rfl
@[simp] theorem setPending_mem (es : List Event) : (s.setPending es).mem = s.mem := rfl
@[simp] theorem setPending_lifecycle (es : List Event) : (s.setPending es).lifecycle = s.lifecycle := rfl
@[simp] theorem setPending_diag (es : List Event) : (s.setPending es).diag = s.diag := rfl
@[simp] theorem setPending_cfg (es : List Event) : (s.setPending es).cfg = s.cfg := rfl
@[simp] theorem setPending_batchPos (es : List Event) : (s.setPending es).batchPos = s.batchPos := rfl
@[simp] theorem setPending_pending (es : List Event) : (s.setPending es).pending = es := rfl
@[simp] theorem setPending_randIn (es : List Event) : (s.setPending es).randIn = s.randIn := rfl
@[simp] theorem setPending_draws (es : List Event) : (s.setPending es).draws = s.draws := rfl

/-! ### `setBatchPos` -/

@[simp] theorem setBatchPos_V (n : Nat) : (s.setBatchPos n).V = s.V := rfl
@[simp] theorem setBatchPos_I (n : Nat) : (s.setBatchPos n).I = s.I := rfl
@[simp] theorem setBatchPos_PC (n : Nat) : (s.setBatchPos n).PC = s.PC := rfl
@[simp] theorem setBatchPos_SP (n : Nat) : (s.setBatchPos n).SP = s.SP := rfl
@[simp] theorem setBatchPos_stack (n : Nat) : (s.setBatchPos n).stack = s.stack := rfl
@[simp] theorem setBatchPos_DT (n : Nat) : (s.setBatchPos n).DT = s.DT := rfl
@[simp] theorem setBatchPos_ST (n : Nat) : (s.setBatchPos n).ST = s.ST := rfl
@[simp] theorem setBatchPos_keypad (n : Nat) : (s.setBatchPos n).keypad = s.keypad := rfl
@[simp] theorem setBatchPos_key (n : Nat) : (s.setBatchPos n).key = s.key := rfl
@[simp] theorem setBatchPos_disp (n : Nat) : (s.setBatchPos n).disp = s.disp := rfl
@[simp] theorem setBatchPos_mem (n : Nat) : (s.setBatchPos n).mem = s.mem := rfl
@[simp] theorem setBatchPos_lifecycle (n : Nat) : (s.setBatchPos n).lifecycle = s.lifecycle := rfl
@[simp] theorem setBatchPos_diag (n : Nat) : (s.setBatchPos n).diag = s.diag := rfl
@[simp] theorem setBatchPos_cfg (n : Nat) : (s.setBatchPos n).cfg = s.cfg := rfl
@[simp] theorem setBatchPos_batchPos (n : Nat) : (s.setBatchPos n).batchPos = n := rfl
@[simp] theorem setBatchPos_pending (n : Nat) : (s.setBatchPos n).pending = s.pending := rfl
@[simp] theorem setBatchPos_randIn (n : Nat) : (s.setBatchPos n).randIn = s.randIn := rfl
@[simp] theorem setBatchPos_draws (n : Nat) : (s.setBatchPos n).draws = s.draws := rfl

/-! ### `record` -/

@[simp] theorem record_V (d : Diagnostic) : (s.record d).V = s.V := rfl
@[simp] theorem record_I (d : Diagnostic) : (s.record d).I = s.I := rfl
@[simp] theorem record_PC (d : Diagnostic) : (s.record d).PC = s.PC := rfl
@[simp] theorem record_SP (d : Diagnostic) : (s.record d).SP = s.SP := rfl
@[simp] theorem record_stack (d : Diagnostic) : (s.record d).stack = s.stack := rfl
@[simp] theorem record_DT (d : Diagnostic) : (s.record d).DT = s.DT := rfl
@[simp] theorem record_ST (d : Diagnostic) : (s.record d).ST = s.ST := rfl
@[simp] theorem record_keypad (d : Diagnostic) : (s.record d).keypad = s.keypad := rfl
@[simp] theorem record_key (d : Diagnostic) : (s.record d).key = s.key := rfl
@[simp] theorem record_disp (d : Diagnostic) : (s.record d).disp = s.disp := rfl
@[simp] theorem record_mem (d : Diagnostic) : (s.record d).mem = s.mem := rfl
@[simp] theorem record_lifecycle (d : Diagnostic) : (s.record d).lifecycle = s.lifecycle := rfl
@[simp] theorem record_diag (d : Diagnostic) : (s.record d).diag = s.diag ++ [d] := rfl
@[simp] theorem record_cfg (d : Diagnostic) : (s.record d).cfg = s.cfg := rfl
@[simp] theorem record_batchPos (d : Diagnostic) : (s.record d).batchPos = s.batchPos := rfl
@[simp] theorem record_pending (d : Diagnostic) : (s.record d).pending = s.pending := rfl
@[simp] theorem record_randIn (d : Diagnostic) : (s.record d).randIn = s.randIn := rfl
@[simp] theorem record_draws (d : Diagnostic) : (s.record d).draws = s.draws := rfl

/-! ### `latchKeys` -/

@[simp] theorem latchKeys_V : (s.latchKeys).V = s.V := rfl
@[simp] theorem latchKeys_I : (s.latchKeys).I = s.I := rfl
@[simp] theorem latchKeys_PC : (s.latchKeys).PC = s.PC := rfl
@[simp] theorem latchKeys_SP : (s.latchKeys).SP = s.SP := rfl
@[simp] theorem latchKeys_stack : (s.latchKeys).stack = s.stack := rfl
@[simp] theorem latchKeys_DT : (s.latchKeys).DT = s.DT := rfl
@[simp] theorem latchKeys_ST : (s.latchKeys).ST = s.ST := rfl
@[simp] theorem latchKeys_keypad : (s.latchKeys).keypad = s.keypad := rfl
@[simp] theorem latchKeys_key : (s.latchKeys).key = s.keypad := rfl
@[simp] theorem latchKeys_disp : (s.latchKeys).disp = s.disp := rfl
@[simp] theorem latchKeys_mem : (s.latchKeys).mem = s.mem := rfl
@[simp] theorem latchKeys_lifecycle : (s.latchKeys).lifecycle = s.lifecycle := rfl
@[simp] theorem latchKeys_diag : (s.latchKeys).diag = s.diag := rfl
@[simp] theorem latchKeys_cfg : (s.latchKeys).cfg = s.cfg := rfl
@[simp] theorem latchKeys_batchPos : (s.latchKeys).batchPos = s.batchPos := rfl
@[simp] theorem latchKeys_pending : (s.latchKeys).pending = s.pending := rfl
@[simp] theorem latchKeys_randIn : (s.latchKeys).randIn = s.randIn := rfl
@[simp] theorem latchKeys_draws : (s.latchKeys).draws = s.draws := rfl

/-! ### `advance` -/

@[simp] theorem advance_V : (s.advance).V = s.V := rfl
@[simp] theorem advance_I : (s.advance).I = s.I := rfl
@[simp] theorem advance_PC : (s.advance).PC = s.PC + 2 := rfl
@[simp] theorem advance_SP : (s.advance).SP = s.SP := rfl
@[simp] theorem advance_stack : (s.advance).stack = s.stack := rfl
@[simp] theorem advance_DT : (s.advance).DT = s.DT := rfl
@[simp] theorem advance_ST : (s.advance).ST = s.ST := rfl
@[simp] theorem advance_keypad : (s.advance).keypad = s.keypad := rfl
@[simp] theorem advance_key : (s.advance).key = s.key := rfl
@[simp] theorem advance_disp : (s.advance).disp = s.disp := rfl
@[simp] theorem advance_mem : (s.advance).mem = s.mem := rfl
@[simp] theorem advance_lifecycle : (s.advance).lifecycle = s.lifecycle := rfl
@[simp] theorem advance_diag : (s.advance).diag = s.diag := rfl
@[simp] theorem advance_cfg : (s.advance).cfg = s.cfg := rfl
@[simp] theorem advance_batchPos : (s.advance).batchPos = s.batchPos := rfl
@[simp] theorem advance_pending : (s.advance).pending = s.pending := rfl
@[simp] theorem advance_randIn : (s.advance).randIn = s.randIn := rfl
@[simp] theorem advance_draws : (s.advance).draws = s.draws := rfl

/-! ### `halt` -/

@[simp] theorem halt_V : (s.halt).V = s.V := rfl
@[simp] theorem halt_I : (s.halt).I = s.I := rfl
@[simp] theorem halt_PC : (s.halt).PC = s.PC := rfl
@[simp] theorem halt_SP : (s.halt).SP = s.SP := rfl
@[simp] theorem halt_stack : (s.halt).stack = s.stack := rfl
@[simp] theorem halt_DT : (s.halt).DT = s.DT := rfl
@[simp] theorem halt_ST : (s.halt).ST = s.ST := rfl
@[simp] theorem halt_keypad : (s.halt).keypad = s.keypad := rfl
@[simp] theorem halt_key : (s.halt).key = s.key := rfl
@[simp] theorem halt_disp : (s.halt).disp = s.disp := rfl
@[simp] theorem halt_mem : (s.halt).mem = s.mem := rfl
@[simp] theorem halt_lifecycle : (s.halt).lifecycle = .paused := rfl
@[simp] theorem halt_diag : (s.halt).diag = s.diag := rfl
@[simp] theorem halt_cfg : (s.halt).cfg = s.cfg := rfl
@[simp] theorem halt_batchPos : (s.halt).batchPos = 0 := rfl
@[simp] theorem halt_pending : (s.halt).pending = s.pending := rfl
@[simp] theorem halt_randIn : (s.halt).randIn = s.randIn := rfl
@[simp] theorem halt_draws : (s.halt).draws = s.draws := rfl

/-! ### `setV` -/

@[simp] theorem setV_V (x : Nibble) (v : Byte) : (s.setV x v).V = s.V.set x.toNat v x.isLt := rfl
@[simp] theorem setV_I (x : Nibble) (v : Byte) : (s.setV x v).I = s.I := rfl
@[simp] theorem setV_PC (x : Nibble) (v : Byte) : (s.setV x v).PC = s.PC := rfl
@[simp] theorem setV_SP (x : Nibble) (v : Byte) : (s.setV x v).SP = s.SP := rfl
@[simp] theorem setV_stack (x : Nibble) (v : Byte) : (s.setV x v).stack = s.stack := rfl
@[simp] theorem setV_DT (x : Nibble) (v : Byte) : (s.setV x v).DT = s.DT := rfl
@[simp] theorem setV_ST (x : Nibble) (v : Byte) : (s.setV x v).ST = s.ST := rfl
@[simp] theorem setV_keypad (x : Nibble) (v : Byte) : (s.setV x v).keypad = s.keypad := rfl
@[simp] theorem setV_key (x : Nibble) (v : Byte) : (s.setV x v).key = s.key := rfl
@[simp] theorem setV_disp (x : Nibble) (v : Byte) : (s.setV x v).disp = s.disp := rfl
@[simp] theorem setV_mem (x : Nibble) (v : Byte) : (s.setV x v).mem = s.mem := rfl
@[simp] theorem setV_lifecycle (x : Nibble) (v : Byte) : (s.setV x v).lifecycle = s.lifecycle := rfl
@[simp] theorem setV_diag (x : Nibble) (v : Byte) : (s.setV x v).diag = s.diag := rfl
@[simp] theorem setV_cfg (x : Nibble) (v : Byte) : (s.setV x v).cfg = s.cfg := rfl
@[simp] theorem setV_batchPos (x : Nibble) (v : Byte) : (s.setV x v).batchPos = s.batchPos := rfl
@[simp] theorem setV_pending (x : Nibble) (v : Byte) : (s.setV x v).pending = s.pending := rfl
@[simp] theorem setV_randIn (x : Nibble) (v : Byte) : (s.setV x v).randIn = s.randIn := rfl
@[simp] theorem setV_draws (x : Nibble) (v : Byte) : (s.setV x v).draws = s.draws := rfl

/-! ### `setFlag` -/

@[simp] theorem setFlag_V (b : Bool) : (s.setFlag b).V = s.V.set vf.toNat (flagByte b) vf.isLt := rfl
@[simp] theorem setFlag_I (b : Bool) : (s.setFlag b).I = s.I := rfl
@[simp] theorem setFlag_PC (b : Bool) : (s.setFlag b).PC = s.PC := rfl
@[simp] theorem setFlag_SP (b : Bool) : (s.setFlag b).SP = s.SP := rfl
@[simp] theorem setFlag_stack (b : Bool) : (s.setFlag b).stack = s.stack := rfl
@[simp] theorem setFlag_DT (b : Bool) : (s.setFlag b).DT = s.DT := rfl
@[simp] theorem setFlag_ST (b : Bool) : (s.setFlag b).ST = s.ST := rfl
@[simp] theorem setFlag_keypad (b : Bool) : (s.setFlag b).keypad = s.keypad := rfl
@[simp] theorem setFlag_key (b : Bool) : (s.setFlag b).key = s.key := rfl
@[simp] theorem setFlag_disp (b : Bool) : (s.setFlag b).disp = s.disp := rfl
@[simp] theorem setFlag_mem (b : Bool) : (s.setFlag b).mem = s.mem := rfl
@[simp] theorem setFlag_lifecycle (b : Bool) : (s.setFlag b).lifecycle = s.lifecycle := rfl
@[simp] theorem setFlag_diag (b : Bool) : (s.setFlag b).diag = s.diag := rfl
@[simp] theorem setFlag_cfg (b : Bool) : (s.setFlag b).cfg = s.cfg := rfl
@[simp] theorem setFlag_batchPos (b : Bool) : (s.setFlag b).batchPos = s.batchPos := rfl
@[simp] theorem setFlag_pending (b : Bool) : (s.setFlag b).pending = s.pending := rfl
@[simp] theorem setFlag_randIn (b : Bool) : (s.setFlag b).randIn = s.randIn := rfl
@[simp] theorem setFlag_draws (b : Bool) : (s.setFlag b).draws = s.draws := rfl

end Sys2Proof.Machine.State
end

