-- ==== Sys2Proof/Laws/Ops.lean ====
section
/-! SUPPORT. One specification lemma for each shared operation: registers, PC, call stack, causes, draws, fetch. Proofs cite these instead of unfolding the operations. -/

namespace Sys2Proof.Machine.State

variable (s : State)

/-! ### Registers -/

/-- Reading a register after writing one (spec/10_state.md R31: no register is another's alias). -/
theorem getV_setV (x r : Nibble) (v : Byte) : (s.setV x v).getV r = if r = x then v else s.getV r := by
  simp only [getV, setV, Vector.getElem_set, BitVec.toNat_inj, eq_comm (a := x)]

@[simp] theorem getV_setV_same (x : Nibble) (v : Byte) : (s.setV x v).getV x = v := by
  rw [getV_setV, if_pos rfl]

theorem getV_setV_ne {x r : Nibble} (v : Byte) (h : r ≠ x) : (s.setV x v).getV r = s.getV r := by
  rw [getV_setV, if_neg h]

theorem getV_setFlag (b : Bool) (r : Nibble) :
    (s.setFlag b).getV r = if r = vf then flagByte b else s.getV r := getV_setV s vf r _

@[simp] theorem getV_setI (v : Word) (r : Nibble) : (s.setI v).getV r = s.getV r := rfl
@[simp] theorem getV_setPC (p : Word) (r : Nibble) : (s.setPC p).getV r = s.getV r := rfl
@[simp] theorem getV_advance (r : Nibble) : s.advance.getV r = s.getV r := rfl
@[simp] theorem getV_setDT (v : Byte) (r : Nibble) : (s.setDT v).getV r = s.getV r := rfl
@[simp] theorem getV_setST (v : Byte) (r : Nibble) : (s.setST v).getV r = s.getV r := rfl
@[simp] theorem getV_setDisp (d : Display) (r : Nibble) : (s.setDisp d).getV r = s.getV r := rfl
@[simp] theorem getV_setMem (m : Memory) (r : Nibble) : (s.setMem m).getV r = s.getV r := rfl
@[simp] theorem getV_latchKeys (r : Nibble) : s.latchKeys.getV r = s.getV r := rfl
@[simp] theorem getV_record (d : Diagnostic) (r : Nibble) : (s.record d).getV r = s.getV r := rfl
@[simp] theorem getV_halt (r : Nibble) : s.halt.getV r = s.getV r := rfl

/-- A state is determined by its registers' values, given the rest. -/
theorem V_ext {v w : Vector Byte 16} (h : ∀ r : Nibble, v[r.toNat]'r.isLt = w[r.toNat]'r.isLt) : v = w := by
  refine Vector.ext fun i hi => ?_
  have := h (BitVec.ofNat 4 i)
  simpa [Nat.mod_eq_of_lt hi] using this

/-! ### Skips -/

/-- A conditional skip changes PC alone. -/
theorem skipIf_eq (c : Bool) : s.skipIf c = s.setPC (if c then s.PC + 2 else s.PC) := by
  cases c <;> rfl

/-! ### Call stack -/

/-- A push below the capacity. -/
theorem push?_of_lt (v : Word) (h : s.SP.val < 16) :
    s.push? v = some { s with stack := s.stack.set s.SP.val v h, SP := ⟨s.SP.val + 1, by omega⟩ } := by
  simp only [push?, dif_pos h]

/-- A push on a full stack fails. -/
theorem push?_full (v : Word) (h : s.SP.val = 16) : s.push? v = none := by
  simp only [push?, dif_neg (show ¬ s.SP.val < 16 by omega)]

/-- A pop of a stack that holds something; the entry stays. -/
theorem pop?_of_pos (h : 0 < s.SP.val) :
    s.pop? = some (s.stack[s.SP.val - 1]'(by omega), { s with SP := ⟨s.SP.val - 1, by omega⟩ }) := by
  simp only [pop?, dif_pos h]

/-- A pop of an empty stack fails. -/
theorem pop?_empty (h : s.SP.val = 0) : s.pop? = none := by
  simp only [pop?, dif_neg (show ¬ 0 < s.SP.val by omega)]

/-! ### Causes -/

/-- Raising a cause: a record, and a pause for a pausing cause. -/
theorem raise_eq (c : Cause) (pc w : Word) :
    s.raise c pc w =
      { s with
        diag := s.diag ++ [⟨c, pc, w⟩]
        lifecycle := if c.pauses then .paused else s.lifecycle
        batchPos := if c.pauses then 0 else s.batchPos } := by
  cases c <;> rfl

/-- A data instruction's warning is a record and nothing else. -/
theorem warnIf_eq (oob : Bool) (i : Instr) :
    s.warnIf oob i =
      { s with diag := if oob then s.diag ++ [⟨.outOfBounds, s.ipc, encode i⟩] else s.diag } := by
  cases oob <;> rfl

@[simp] theorem getV_warnIf (oob : Bool) (i : Instr) (r : Nibble) : (s.warnIf oob i).getV r = s.getV r := by
  cases oob <;> rfl

/-- Resume: Running where it was Paused, nothing else. -/
theorem resume_eq :
    s.resume = { s with lifecycle := if s.lifecycle = .paused then .running else s.lifecycle } := by
  obtain ⟨V, I, PC, SP, stack, DT, ST, keypad, key, disp, mem, l, diag, cfg, bp, pe, ri, dr⟩ := s
  cases l <;> rfl

/-! ### Random draws -/

/-- A draw from the bytes that stand ready. -/
theorem draw_cons {b : Byte} {rest : List Byte} (h : s.randIn = b :: rest) :
    s.draw = (b, { s with randIn := rest }) := by
  simp only [draw, h]

/-- A draw from the free stream. -/
theorem draw_nil (h : s.randIn = []) :
    s.draw = (Config.freeRand s.draws, { s with draws := s.draws + 1 }) := by
  simp only [draw, h]

/-- A draw changes the input it is taken from, and nothing else. -/
theorem draw_rest : s.draw.2 = { s with randIn := s.draw.2.randIn, draws := s.draw.2.draws } := by
  unfold draw
  split <;> rfl

@[simp] theorem draw_V : s.draw.2.V = s.V := by unfold draw; split <;> rfl
@[simp] theorem draw_I : s.draw.2.I = s.I := by unfold draw; split <;> rfl
@[simp] theorem draw_PC : s.draw.2.PC = s.PC := by unfold draw; split <;> rfl
@[simp] theorem draw_SP : s.draw.2.SP = s.SP := by unfold draw; split <;> rfl
@[simp] theorem draw_stack : s.draw.2.stack = s.stack := by unfold draw; split <;> rfl
@[simp] theorem draw_DT : s.draw.2.DT = s.DT := by unfold draw; split <;> rfl
@[simp] theorem draw_ST : s.draw.2.ST = s.ST := by unfold draw; split <;> rfl
@[simp] theorem draw_keypad : s.draw.2.keypad = s.keypad := by unfold draw; split <;> rfl
@[simp] theorem draw_key : s.draw.2.key = s.key := by unfold draw; split <;> rfl
@[simp] theorem draw_disp : s.draw.2.disp = s.disp := by unfold draw; split <;> rfl
@[simp] theorem draw_mem : s.draw.2.mem = s.mem := by unfold draw; split <;> rfl
@[simp] theorem draw_lifecycle : s.draw.2.lifecycle = s.lifecycle := by unfold draw; split <;> rfl
@[simp] theorem draw_diag : s.draw.2.diag = s.diag := by unfold draw; split <;> rfl
@[simp] theorem draw_cfg : s.draw.2.cfg = s.cfg := by unfold draw; split <;> rfl
@[simp] theorem draw_batchPos : s.draw.2.batchPos = s.batchPos := by unfold draw; split <;> rfl
@[simp] theorem draw_pending : s.draw.2.pending = s.pending := by unfold draw; split <;> rfl
@[simp] theorem getV_draw (r : Nibble) : s.draw.2.getV r = s.getV r := by unfold draw; split <;> rfl

/-! ### Fetch -/

/-- A fetch in range. -/
theorem fetch_of_lt (h : s.PC.toNat + 1 < memSize) :
    s.fetch = some (wordOfBytes (s.mem.get s.PC.toNat) (s.mem.get (s.PC.toNat + 1))) := by
  simp only [fetch, Memory.read?_of_lt _ h, Memory.read?_of_lt _ (show s.PC.toNat < memSize by omega)]

/-- A fetch out of range. -/
theorem fetch_of_ge (h : memSize ≤ s.PC.toNat + 1) : s.fetch = none := by
  simp only [fetch, Memory.read?_of_ge _ h]
  split <;> simp_all

/-- A fetch that succeeds was in range. -/
theorem fetch_lt {w : Word} (h : s.fetch = some w) : s.PC.toNat + 1 < memSize := by
  by_contra hn
  rw [fetch_of_ge s (Nat.le_of_not_lt hn)] at h
  cases h

@[simp] theorem fetch_latchKeys : s.latchKeys.fetch = s.fetch := rfl

end Sys2Proof.Machine.State
end

