-- ==== Sys2Proof/Laws/Display.lean ====
section
/-! SUPPORT. What drawing does to each pixel and to the collision flag: the loops of DXYN have a closed form, because no pixel is visited twice (spec/43_display.md R223). -/

namespace Sys2Proof.Machine

/-- Reading a pixel after setting one. -/
theorem Display.pixel_setPixel (d : Display) (x px : Fin 64) (y py : Fin 32) (b : Bool) :
    (d.setPixel x y b).pixel px py = if px = x ∧ py = y then b else d.pixel px py := by
  simp only [Display.pixel, Display.setPixel, Vector.getElem_set]
  by_cases hy : y.val = py.val
  · by_cases hx : x.val = px.val
    · have : px = x ∧ py = y := ⟨Fin.ext hx.symm, Fin.ext hy.symm⟩
      simp [this]
    · have : ¬ (px = x ∧ py = y) := fun h => hx (by rw [h.1])
      simp [hy, hx, this]
  · have : ¬ (px = x ∧ py = y) := fun h => hy (by rw [h.2])
    simp [hy, this]

@[simp] theorem Display.pixel_blank (x : Fin 64) (y : Fin 32) : Display.blank.pixel x y = false := by
  simp [Display.pixel, Display.blank]

/-- Two buffers with the same pixels are the same. -/
theorem Display.ext_pixel {d e : Display} (h : ∀ x y, d.pixel x y = e.pixel x y) : d = e := by
  refine Vector.ext fun y hy => Vector.ext fun x hx => ?_
  exact h ⟨x, hx⟩ ⟨y, hy⟩

/-- Some set bit of `row`, among those numbered `b` to `b + k − 1`, falls on column `px`. -/
def RowCovers (row : Byte) (x0 b k : Nat) (px : Fin 64) : Prop :=
  ∃ j, b ≤ j ∧ j < b + k ∧ row.getLsbD (7 - j) = true ∧ px = Fin.ofNat 64 (x0 + j)

theorem rowCovers_zero (row : Byte) (x0 b : Nat) (px : Fin 64) : ¬ RowCovers row x0 b 0 px := by
  rintro ⟨j, h1, h2, -⟩; omega

theorem rowCovers_succ (row : Byte) (x0 b k : Nat) (px : Fin 64) :
    RowCovers row x0 b (k + 1) px ↔
      (row.getLsbD (7 - b) = true ∧ px = Fin.ofNat 64 (x0 + b)) ∨ RowCovers row x0 (b + 1) k px := by
  constructor
  · rintro ⟨j, h1, h2, h3, h4⟩
    rcases Nat.eq_or_lt_of_le h1 with rfl | h
    · exact .inl ⟨h3, h4⟩
    · exact .inr ⟨j, h, by omega, h3, h4⟩
  · rintro (⟨h3, h4⟩ | ⟨j, h1, h2, h3, h4⟩)
    · exact ⟨b, Nat.le_refl b, by omega, h3, h4⟩
    · exact ⟨j, by omega, by omega, h3, h4⟩

/-- The eight columns of a row are distinct (R223). -/
theorem rowCovers_ne {row : Byte} {x0 b k : Nat} (hk : b + 1 + k ≤ 8) {px : Fin 64}
    (h : RowCovers row x0 (b + 1) k px) : px ≠ Fin.ofNat 64 (x0 + b) := by
  obtain ⟨j, h1, h2, -, rfl⟩ := h
  intro he
  have := congrArg Fin.val he
  simp only [Fin.ofNat] at this
  omega

theorem drawBit_pixel (bit : Bool) (x px : Fin 64) (y py : Fin 32) (c : Canvas) :
    (drawBit bit x y c).1.pixel px py = (c.1.pixel px py ^^ (bit && decide (px = x ∧ py = y))) := by
  cases bit
  · simp [drawBit]
  · by_cases h : px = x ∧ py = y
    · simp [drawBit, Display.pixel_setPixel, h]
    · simp [drawBit, Display.pixel_setPixel, h]

theorem drawBit_pixel_of_ne (bit : Bool) (c : Canvas) {x px : Fin 64} {y py : Fin 32} (h : px ≠ x ∨ py ≠ y) :
    (drawBit bit x y c).1.pixel px py = c.1.pixel px py := by
  rw [drawBit_pixel, decide_eq_false (fun hc : px = x ∧ py = y => h.elim (· hc.1) (· hc.2)), Bool.and_false,
    Bool.xor_false]

theorem drawBit_hit (bit : Bool) (x : Fin 64) (y : Fin 32) (c : Canvas) :
    (drawBit bit x y c).2 = (c.2 || (bit && c.1.pixel x y)) := by
  cases bit <;> simp [drawBit]

open Classical in
/-- A row of a sprite inverts exactly the pixels it covers. -/
theorem drawBits_pixel (row : Byte) (x0 b k : Nat) (hk : b + k ≤ 8) (y py : Fin 32) (px : Fin 64) (c : Canvas) :
    (drawBits row x0 y b k c).1.pixel px py =
      (c.1.pixel px py ^^ decide (py = y ∧ RowCovers row x0 b k px)) := by
  induction k generalizing b c with
  | zero => simp [drawBits, rowCovers_zero]
  | succ k ih =>
    rw [drawBits, ih (b + 1) (by omega), drawBit_pixel, Bool.xor_assoc]
    congr 1
    by_cases hy : py = y
    · by_cases hr : RowCovers row x0 (b + 1) k px
      · have hne := rowCovers_ne (by omega) hr
        rw [decide_eq_false (fun h : px = _ ∧ py = y => hne h.1), decide_eq_true ⟨hy, hr⟩,
          decide_eq_true ⟨hy, (rowCovers_succ ..).mpr (.inr hr)⟩, Bool.and_false, Bool.false_xor]
      · simp [hy, hr, rowCovers_succ]
    · simp [hy]

theorem drawBits_pixel_of_ne (row : Byte) (x0 b k : Nat) (hk : b + k ≤ 8) {y py : Fin 32} (h : py ≠ y)
    (px : Fin 64) (c : Canvas) : (drawBits row x0 y b k c).1.pixel px py = c.1.pixel px py := by
  classical
  rw [drawBits_pixel row x0 b k hk, decide_eq_false (fun hc : py = y ∧ _ => h hc.1), Bool.xor_false]

/-- A row of a sprite collides iff it covers a pixel that was set. -/
theorem drawBits_hit (row : Byte) (x0 b k : Nat) (hk : b + k ≤ 8) (y : Fin 32) (c : Canvas) :
    (drawBits row x0 y b k c).2 = true ↔
      c.2 = true ∨ ∃ px, RowCovers row x0 b k px ∧ c.1.pixel px y = true := by
  induction k generalizing b c with
  | zero => simp [drawBits, rowCovers_zero]
  | succ k ih =>
    rw [drawBits, ih (b + 1) (by omega), drawBit_hit]
    simp only [Bool.or_eq_true, Bool.and_eq_true, rowCovers_succ, or_assoc]
    refine or_congr_right ⟨?_, ?_⟩
    · rintro (⟨h1, h2⟩ | ⟨px, h1, h2⟩)
      · exact ⟨_, .inl ⟨h1, rfl⟩, h2⟩
      · rw [drawBit_pixel_of_ne _ _ (.inl (rowCovers_ne (by omega) h1))] at h2
        exact ⟨px, .inr h1, h2⟩
    · rintro ⟨px, ⟨h1, rfl⟩ | h1, h2⟩
      · exact .inl ⟨h1, h2⟩
      · refine .inr ⟨px, h1, ?_⟩
        rwa [drawBit_pixel_of_ne _ _ (.inl (rowCovers_ne (by omega) h1))]

/-- Some row of `rows`, the first of them drawn as row `r`, covers the pixel. -/
def RowsCover (x0 y0 r : Nat) (rows : List Byte) (px : Fin 64) (py : Fin 32) : Prop :=
  ∃ i row, rows[i]? = some row ∧ py = Fin.ofNat 32 (y0 + (r + i)) ∧ RowCovers row x0 0 8 px

theorem rowsCover_nil (x0 y0 r : Nat) (px : Fin 64) (py : Fin 32) : ¬ RowsCover x0 y0 r [] px py := by
  rintro ⟨i, row, h, -⟩; simp at h

theorem rowsCover_cons (x0 y0 r : Nat) (row : Byte) (rows : List Byte) (px : Fin 64) (py : Fin 32) :
    RowsCover x0 y0 r (row :: rows) px py ↔
      (py = Fin.ofNat 32 (y0 + r) ∧ RowCovers row x0 0 8 px) ∨ RowsCover x0 y0 (r + 1) rows px py := by
  constructor
  · rintro ⟨i, row', h1, h2, h3⟩
    cases i with
    | zero =>
      simp only [List.getElem?_cons_zero, Option.some.injEq] at h1
      exact .inl ⟨by simpa using h2, h1 ▸ h3⟩
    | succ i => exact .inr ⟨i, row', by simpa using h1, by rw [h2]; congr 1; omega, h3⟩
  · rintro (⟨h2, h3⟩ | ⟨i, row', h1, h2, h3⟩)
    · exact ⟨0, row, by simp, by simpa using h2, h3⟩
    · exact ⟨i + 1, row', by simpa using h1, by rw [h2]; congr 1; omega, h3⟩

/-- The rows of a sprite are distinct (R223). -/
theorem rowsCover_ne {x0 y0 r : Nat} {rows : List Byte} (hr : r + 1 + rows.length ≤ 32) {px : Fin 64} {py : Fin 32}
    (h : RowsCover x0 y0 (r + 1) rows px py) : py ≠ Fin.ofNat 32 (y0 + r) := by
  obtain ⟨i, row, h1, rfl, -⟩ := h
  have hi : i < rows.length := (List.getElem?_eq_some_iff.mp h1).1
  intro he
  have := congrArg Fin.val he
  simp only [Fin.ofNat] at this
  omega

open Classical in
/-- Drawing inverts exactly the pixels that the sprite covers (R223). -/
theorem drawRows_pixel (x0 y0 r : Nat) (rows : List Byte) (hr : r + rows.length ≤ 32) (px : Fin 64) (py : Fin 32)
    (c : Canvas) :
    (drawRows x0 y0 r rows c).1.pixel px py = (c.1.pixel px py ^^ decide (RowsCover x0 y0 r rows px py)) := by
  induction rows generalizing r c with
  | nil => simp [drawRows, rowsCover_nil]
  | cons row rows ih =>
    simp only [List.length_cons] at hr
    rw [drawRows, ih (r + 1) (by omega), drawBits_pixel _ _ _ _ (by omega), Bool.xor_assoc]
    congr 1
    by_cases h : RowsCover x0 y0 (r + 1) rows px py
    · have hne := rowsCover_ne (by omega) h
      rw [decide_eq_false (fun h : py = _ ∧ _ => hne h.1), decide_eq_true h,
        decide_eq_true ((rowsCover_cons ..).mpr (.inr h)), Bool.false_xor]
    · simp [h, rowsCover_cons]

/-- Drawing collides iff the sprite covers a pixel that was set (R222). -/
theorem drawRows_hit (x0 y0 r : Nat) (rows : List Byte) (hr : r + rows.length ≤ 32) (c : Canvas) :
    (drawRows x0 y0 r rows c).2 = true ↔
      c.2 = true ∨ ∃ px py, RowsCover x0 y0 r rows px py ∧ c.1.pixel px py = true := by
  classical
  induction rows generalizing r c with
  | nil => simp [drawRows, rowsCover_nil]
  | cons row rows ih =>
    simp only [List.length_cons] at hr
    rw [drawRows, ih (r + 1) (by omega), drawBits_hit _ _ _ _ (by omega), or_assoc]
    refine or_congr_right ⟨?_, ?_⟩
    · rintro (⟨px, h1, h2⟩ | ⟨px, py, h1, h2⟩)
      · exact ⟨px, _, (rowsCover_cons ..).mpr (.inl ⟨rfl, h1⟩), h2⟩
      · rw [drawBits_pixel_of_ne _ _ _ _ (by omega) (rowsCover_ne (by omega) h1)] at h2
        exact ⟨px, py, (rowsCover_cons ..).mpr (.inr h1), h2⟩
    · rintro ⟨px, py, h0, h2⟩
      rcases (rowsCover_cons ..).mp h0 with ⟨rfl, h1⟩ | h1
      · exact .inl ⟨px, h1, h2⟩
      · refine .inr ⟨px, py, h1, ?_⟩
        rwa [drawBits_pixel_of_ne _ _ _ _ (by omega) (rowsCover_ne (by omega) h1)]

end Sys2Proof.Machine
end

