-- ==== Sys2Proof/Laws/Instructions.lean ====
section
/-! SUPPORT. One specification lemma for each operation that the instruction families share among themselves: the flag-then-result write, the key scan, the block transfers. -/

namespace Sys2Proof.Machine

/-! ### Flags -/

/-- The flag-then-result write: the result wins where the destination is VF (spec/42_arith.md R190). -/
theorem State.getV_setFlagThenV (s : State) (flag : Bool) (x r : Nibble) (v : Byte) :
    (s.setFlagThenV flag x v).getV r = if r = x then v else if r = vf then flagByte flag else s.getV r := by
  rw [State.setFlagThenV, State.getV_setV, State.getV_setFlag]

/-- The flag-then-result write touches the general registers only. -/
theorem State.setFlagThenV_rest (s : State) (flag : Bool) (x : Nibble) (v : Byte) :
    s.setFlagThenV flag x v = { s with V := (s.setFlagThenV flag x v).V } := rfl

/-! ### The key scan -/

/-- Reading the snapshot at a key given by its number. -/
theorem State.keyDown_ofNat (s : State) (k : Nat) (h : k < 16) : s.keyDown (BitVec.ofNat 4 k) = s.key[k] := by
  have hmod : (BitVec.ofNat 4 k).toNat = k := by rw [BitVec.toNat_ofNat, Nat.mod_eq_of_lt h]
  unfold keyDown
  congr 1

/-- The scan of the last `n` keys gives the lowest of them that is down. -/
theorem State.scanKeys_eq_some (s : State) (k : Fin 16) (hk : s.key[k.val] = true)
    (hlow : ∀ j : Fin 16, j < k → s.key[j.val] = false) (n : Nat) (hn : n ≤ 16) (hkn : 16 - n ≤ k.val) :
    s.scanKeys n = some (BitVec.ofNat 4 k.val) := by
  induction n with
  | zero => omega
  | succ n ih =>
    rw [scanKeys, s.keyDown_ofNat (15 - n) (by omega)]
    by_cases h : 15 - n = k.val
    · rw [if_pos (by simpa only [h] using hk), h]
    · rw [if_neg (by rw [hlow ⟨15 - n, by omega⟩ (by simp only [Fin.lt_def]; omega)]; simp)]
      exact ih (by omega) (by omega)

/-- With no key down the scan finds none. -/
theorem State.scanKeys_eq_none (s : State) (h : ∀ k : Fin 16, s.key[k.val] = false) (n : Nat) :
    s.scanKeys n = none := by
  induction n with
  | zero => rfl
  | succ n ih =>
    have : s.keyDown (BitVec.ofNat 4 (15 - n)) = false := h ⟨_, (BitVec.ofNat 4 (15 - n)).isLt⟩
    rw [scanKeys, if_neg (by simp [this]), ih]

/-! ### Block transfers -/

/-- The quirk's advance of `I` (D24) changes `I` alone. -/
theorem State.bumpIndex_eq (s : State) (x : Nibble) :
    s.bumpIndex x =
      { s with I := if s.cfg.quirkLsInc then s.I + BitVec.ofNat 16 (x.toNat + 1) else s.I } := by
  unfold bumpIndex
  split <;> rfl

theorem State.length_regsTo (s : State) (x : Nibble) : (s.regsTo x).length = x.toNat + 1 := by
  have := x.isLt
  simp only [regsTo, List.length_take, Vector.length_toList]
  omega

/-- Entry `r` of the registers to be stored is `V[r]`. -/
theorem State.getElem_regsTo (s : State) (x r : Nibble) (h : r.toNat < (s.regsTo x).length) :
    (s.regsTo x)[r.toNat] = s.getV r := by
  simp only [regsTo, List.getElem_take, Vector.getElem_toList]
  rfl

/-- Everything the loads of FX65 do: a register below `n` whose address is in range gets its byte, every other one
is unchanged. -/
theorem getElem_loadRegs (m : Memory) (base : Word) (v : Vector Byte 16) (n : Nat) (hn : n ≤ 16) (k : Nat)
    (hk : k < 16) :
    (loadRegs m base v n)[k] = if k < n then (m.read? (effAddr base k)).getD v[k] else v[k] := by
  induction n with
  | zero => simp [loadRegs]
  | succ n ih =>
    have ih := ih (by omega)
    rw [loadRegs]
    by_cases hkn : k = n
    · subst hkn
      cases h : m.read? (effAddr base k) with
      | none => simp [ih]
      | some b => simp
    · have : k < n + 1 ↔ k < n := by omega
      simp only [this, ← ih]
      cases h : m.read? (effAddr base n) with
      | none => rfl
      | some b => simp [Ne.symm hkn]

end Sys2Proof.Machine
end

