-- ==== Sys2Proof/Laws/PerInstr.lean ====
section
/-! SUPPORT. Statements about every instruction, one lemma per constructor (LAWS.json). Family RoundTrip: the decoder reads an instruction's word as that instruction (spec/30_encoding.md R115). -/

namespace Sys2Proof.Laws.RoundTrip

/-- Decoding the word of `i` gives `i`. -/
def Statement (i : Instr) : Prop := decodeWord (encode i) = .ok i

theorem cls : Statement .cls := rfl

theorem ret : Statement .ret := rfl

theorem jp (nnn : Addr) : Statement (.jp nnn) := by
  simp [Statement, encode, decodeWord, decodeRow]

theorem call (nnn : Addr) : Statement (.call nnn) := by
  simp [Statement, encode, decodeWord, decodeRow]

theorem seImm (x : Nibble) (nn : Byte) : Statement (.seImm x nn) := by
  simp [Statement, encode, decodeWord, decodeRow]

theorem sneImm (x : Nibble) (nn : Byte) : Statement (.sneImm x nn) := by
  simp [Statement, encode, decodeWord, decodeRow]

theorem seReg (x : Nibble) (y : Nibble) (n : Nibble) : Statement (.seReg x y n) := by
  simp [Statement, encode, decodeWord, decodeRow]

theorem ldImm (x : Nibble) (nn : Byte) : Statement (.ldImm x nn) := by
  simp [Statement, encode, decodeWord, decodeRow]

theorem addImm (x : Nibble) (nn : Byte) : Statement (.addImm x nn) := by
  simp [Statement, encode, decodeWord, decodeRow]

theorem ldReg (x : Nibble) (y : Nibble) : Statement (.ldReg x y) := by
  simp [Statement, encode, decodeWord, decodeRow, decodeFamily8]

theorem orReg (x : Nibble) (y : Nibble) : Statement (.orReg x y) := by
  simp [Statement, encode, decodeWord, decodeRow, decodeFamily8]

theorem andReg (x : Nibble) (y : Nibble) : Statement (.andReg x y) := by
  simp [Statement, encode, decodeWord, decodeRow, decodeFamily8]

theorem xorReg (x : Nibble) (y : Nibble) : Statement (.xorReg x y) := by
  simp [Statement, encode, decodeWord, decodeRow, decodeFamily8]

theorem addReg (x : Nibble) (y : Nibble) : Statement (.addReg x y) := by
  simp [Statement, encode, decodeWord, decodeRow, decodeFamily8]

theorem subReg (x : Nibble) (y : Nibble) : Statement (.subReg x y) := by
  simp [Statement, encode, decodeWord, decodeRow, decodeFamily8]

theorem shr (x : Nibble) (y : Nibble) : Statement (.shr x y) := by
  simp [Statement, encode, decodeWord, decodeRow, decodeFamily8]

theorem subnReg (x : Nibble) (y : Nibble) : Statement (.subnReg x y) := by
  simp [Statement, encode, decodeWord, decodeRow, decodeFamily8]

theorem shl (x : Nibble) (y : Nibble) : Statement (.shl x y) := by
  simp [Statement, encode, decodeWord, decodeRow, decodeFamily8]

theorem sneReg (x : Nibble) (y : Nibble) (n : Nibble) : Statement (.sneReg x y n) := by
  simp [Statement, encode, decodeWord, decodeRow]

theorem ldI (nnn : Addr) : Statement (.ldI nnn) := by
  simp [Statement, encode, decodeWord, decodeRow]

theorem jpV0 (nnn : Addr) : Statement (.jpV0 nnn) := by
  simp [Statement, encode, decodeWord, decodeRow]

theorem rnd (x : Nibble) (nn : Byte) : Statement (.rnd x nn) := by
  simp [Statement, encode, decodeWord, decodeRow]

theorem drw (x : Nibble) (y : Nibble) (n : Nibble) : Statement (.drw x y n) := by
  simp [Statement, encode, decodeWord, decodeRow]

theorem skp (x : Nibble) : Statement (.skp x) := by
  simp [Statement, encode, decodeWord, decodeRow, decodeFamilyE]

theorem sknp (x : Nibble) : Statement (.sknp x) := by
  simp [Statement, encode, decodeWord, decodeRow, decodeFamilyE]

theorem ldVxDt (x : Nibble) : Statement (.ldVxDt x) := by
  simp [Statement, encode, decodeWord, decodeRow, decodeFamilyF]

theorem ldVxK (x : Nibble) : Statement (.ldVxK x) := by
  simp [Statement, encode, decodeWord, decodeRow, decodeFamilyF]

theorem ldDtVx (x : Nibble) : Statement (.ldDtVx x) := by
  simp [Statement, encode, decodeWord, decodeRow, decodeFamilyF]

theorem ldStVx (x : Nibble) : Statement (.ldStVx x) := by
  simp [Statement, encode, decodeWord, decodeRow, decodeFamilyF]

theorem addI (x : Nibble) : Statement (.addI x) := by
  simp [Statement, encode, decodeWord, decodeRow, decodeFamilyF]

theorem ldF (x : Nibble) : Statement (.ldF x) := by
  simp [Statement, encode, decodeWord, decodeRow, decodeFamilyF]

theorem ldB (x : Nibble) : Statement (.ldB x) := by
  simp [Statement, encode, decodeWord, decodeRow, decodeFamilyF]

theorem dump (x : Nibble) : Statement (.dump x) := by
  simp [Statement, encode, decodeWord, decodeRow, decodeFamilyF]

theorem load (x : Nibble) : Statement (.load x) := by
  simp [Statement, encode, decodeWord, decodeRow, decodeFamilyF]

end Sys2Proof.Laws.RoundTrip
end

