-- ==== Sys2Proof/Laws/Step.lean ====
section
/-! SUPPORT. What a step can do, said once: the cases of a cycle, and the case of each event. -/

namespace Sys2Proof.Machine

/-- A cycle that fetches an instruction's word runs its meaning, with PC advanced (spec/40_cycle.md R140). -/
theorem cycle_of_decode {s : State} {w : Word} {i : Instr} (hf : s.fetch = some w) (hd : decodeWord w = .ok i) :
    cycle s = exec i s.latchKeys.advance := by
  simp only [cycle, State.fetch_latchKeys, hf, cycleWord, hd]

/-- A cycle that fetches an unrecognized word (R144). -/
theorem cycle_of_unrecognized {s : State} {w : Word} {e : DecodeError} (hf : s.fetch = some w)
    (hd : decodeWord w = .error e) : cycle s = .next (unrecognizedNoOp w s.latchKeys.advance) := by
  simp only [cycle, State.fetch_latchKeys, hf, cycleWord, hd]

/-- A cycle whose fetch is out of range (spec/60_exceptions.md R305). -/
theorem cycle_of_noFetch {s : State} (hf : s.fetch = none) : cycle s = .next (fetchFault s.latchKeys) := by
  simp only [cycle, State.fetch_latchKeys, hf]

/-- The three things a cycle can be. -/
theorem cycle_cases (s : State) :
    (s.fetch = none ∧ cycle s = .next (fetchFault s.latchKeys)) ∨
    (∃ w, s.fetch = some w ∧ decodeRow w = none ∧ cycle s = .next (unrecognizedNoOp w s.latchKeys.advance)) ∨
    (∃ w i, s.fetch = some w ∧ decodeWord w = .ok i ∧ cycle s = exec i s.latchKeys.advance) := by
  cases hf : s.fetch with
  | none => exact .inl ⟨rfl, cycle_of_noFetch hf⟩
  | some w =>
    cases hd : decodeWord w with
    | ok i => exact .inr (.inr ⟨w, i, rfl, hd, cycle_of_decode hf hd⟩)
    | error e => exact .inr (.inl ⟨w, rfl, (decodeWord_error.mp hd).1, cycle_of_unrecognized hf hd⟩)

/-- A step is its event. -/
theorem step_of_nextEvent {s t : State} {e : Event} (h : s.nextEvent = (e, t)) : step s = happen e t := by
  simp only [step, h]

/-- Everything that choosing the next event changes: an event leaves `pending`, or the batch position moves. -/
theorem nextEvent_rest (s : State) :
    s.nextEvent.2 = { s with pending := s.nextEvent.2.pending, batchPos := s.nextEvent.2.batchPos } := by
  unfold State.nextEvent
  split
  · rfl
  · split
    · rfl
    · split
      · split <;> rfl
      · rfl
      · rfl

/-- With an event due, it is next. -/
theorem nextEvent_cons {s : State} {e : Event} {rest : List Event} (h : s.pending = e :: rest) :
    s.nextEvent = (e, s.setPending rest) := by
  simp only [State.nextEvent, h]

/-- With none due, the Scheduler chooses a cycle or a tick. -/
theorem nextEvent_nil {s : State} (h : s.pending = []) :
    (s.nextEvent.1 = .cycle ∨ s.nextEvent.1 = .tick) ∧ s.nextEvent.2.pending = [] := by
  unfold State.nextEvent
  rw [h]
  dsimp only
  split
  · exact ⟨.inl rfl, h⟩
  · split
    · split
      · exact ⟨.inl rfl, h⟩
      · exact ⟨.inr rfl, h⟩
    · exact ⟨.inl rfl, h⟩
    · exact ⟨.inl rfl, h⟩

/-- A cycle event in Running is a cycle. -/
theorem cycleEvent_running {s : State} (h : s.lifecycle = .running) : cycleEvent s = cycle s := by
  simp only [cycleEvent, h]

/-- A cycle event is not enabled outside Running. -/
theorem cycleEvent_idle {s : State} (h : s.lifecycle ≠ .running) : cycleEvent s = .next s := by
  unfold cycleEvent
  split
  · exact absurd ‹_› h
  · rfl
  · rfl

/-- A tick in Running (spec/60_exceptions.md R330). -/
theorem tick_running {s : State} (h : s.lifecycle = .running) :
    s.tick = (s.setDT (countDown s.DT)).setST (countDown s.ST) := by
  simp only [State.tick, h]

/-- A tick is not applied outside Running (R331). -/
theorem tick_idle {s : State} (h : s.lifecycle ≠ .running) : s.tick = s := by
  unfold State.tick
  split
  · exact absurd ‹_› h
  · rfl
  · rfl

/-- A timer counts down by 1, never below 0. -/
theorem countDown_toNat (t : Byte) : (countDown t).toNat = t.toNat - 1 := by
  have one : (1 : Byte).toNat = 1 := rfl
  unfold countDown
  split
  · rw [BitVec.toNat_sub_of_le (by rw [BitVec.le_def, one]; omega), one]
  · omega

/-- `Pause` pauses a running machine. -/
theorem pauseSignal_eq (s : State) :
    s.pauseSignal = if s.lifecycle = .running then s.halt else s := by
  unfold State.pauseSignal
  split <;> simp_all

/-- `KeyWrite` before `Quit` sets one flag. -/
theorem keyWrite_eq (s : State) (k : Nibble) (down : Bool) (h : s.lifecycle ≠ .quit) :
    s.keyWrite k down = s.setKeypad (s.keypad.set k.toNat down k.isLt) := by
  unfold State.keyWrite
  split <;> first | rfl | exact absurd ‹_› h

/-- The load status decides what `Load` answers (spec/70_reset_and_hazards.md R350). -/
theorem loadRom_eq (rom : List Byte) (s : State) :
    s.loadRom rom =
      if rom.length = 0 then .fault .emptyRom
      else if rom.length > maxRom then .fault .romTooLarge
      else .next (s.loaded rom) := by
  unfold State.loadRom loadStatus
  split_ifs <;> rfl

/-- `Load` accepts exactly the well-formed ROM images (R351). -/
theorem loadStatus_ok_iff (rom : List Byte) : loadStatus rom = .ok ↔ romWellFormed rom = true := by
  unfold loadStatus romWellFormed
  rw [Bool.and_eq_true, decide_eq_true_iff, decide_eq_true_iff]
  split_ifs with h₁ h₂
  · exact iff_of_false (by decide) fun h => by omega
  · exact iff_of_false (by decide) fun h => by omega
  · exact iff_of_true rfl ⟨by omega, by omega⟩

end Sys2Proof.Machine
end

