-- ==== Sys2Proof/Tests/Slice0.lean ====
section
/-! SUPPORT. The author's own tests. Expected results are the vectors of spec/95_test_vectors.md (named "T<table>" in the docstrings) and words written out from the patterns of spec/30_encoding.md R115. The `witness_` theorems show concrete states that meet the hypotheses of the statements. -/

namespace Sys2Proof.Tests

open Sys2Proof Sys2Proof.Machine

/-! ### Helpers -/

/-- The reset state with some general registers set. -/
def withV (l : List (Nibble × Byte)) (s : State := State.reset) : State :=
  l.foldl (fun s p => s.setV p.1 p.2) s

/-- Bytes stored from `a` on. -/
def withMem (a : Nat) (bs : List Byte) (s : State := State.reset) : State := s.setMem (s.mem.writeRun a bs)

/-- The quirk flags set. -/
def withQuirks (lsInc fx1e : Bool) (s : State := State.reset) : State :=
  { s with cfg := { s.cfg with quirkLsInc := lsInc, quirkFx1eFlag := fx1e } }

/-- Keys held down. -/
def withKeys (ks : List Nibble) (s : State := State.reset) : State :=
  ks.foldl (fun s k => s.keyWrite k true) s

/-- One step that runs the instruction word `w`, and what `f` sees after it. -/
def after {α : Type} (w : Nat) (s : State) (f : State → α) : Option α :=
  match step (s.withFetchWord 16 w) with
  | .next t => some (f t)
  | .fault _ => none
  | .refused _ => none

/-- One step, and what `f` sees after it. -/
def stepped {α : Type} (s : State) (f : State → α) : Option α :=
  match step s with
  | .next t => some (f t)
  | .fault _ => none
  | .refused _ => none

/-- `k` bytes of memory from `a` on. -/
def bytesAt (a k : Nat) (s : State) : List (Option Byte) := (List.range k).map fun j => s.mem.read? (a + j)

/-- The diagnostics as the vectors list them. -/
def records (s : State) : List (Nat × Nat × Nat) := s.diag.map fun d => (d.code, d.pc.toNat, d.opcode.toNat)

/-- How many pixels of the buffer are set. -/
def litCount (s : State) : Nat := (s.disp.toList.map fun row => (row.toList.filter id).length).sum

/-- The set pixels of row `y`. -/
def litIn (y : Fin 32) (s : State) : List Nat := ((List.finRange 64).filter fun x => s.disp.pixel x y).map Fin.val

/-! ### Decoding: one word for each row of R115, written out from its pattern -/

theorem test_decode_00E0 : decodeWord 0x00E0#16 = .ok .cls := by decide
theorem test_decode_00EE : decodeWord 0x00EE#16 = .ok .ret := by decide
theorem test_decode_1NNN : decodeWord 0x1ABC#16 = .ok (.jp 0xABC#12) := by decide
theorem test_decode_2NNN : decodeWord 0x2ABC#16 = .ok (.call 0xABC#12) := by decide
theorem test_decode_3XNN : decodeWord 0x3ABC#16 = .ok (.seImm 0xA#4 0xBC#8) := by decide
theorem test_decode_4XNN : decodeWord 0x4ABC#16 = .ok (.sneImm 0xA#4 0xBC#8) := by decide
theorem test_decode_5XYN : decodeWord 0x5ABC#16 = .ok (.seReg 0xA#4 0xB#4 0xC#4) := by decide
theorem test_decode_6XNN : decodeWord 0x6ABC#16 = .ok (.ldImm 0xA#4 0xBC#8) := by decide
theorem test_decode_7XNN : decodeWord 0x7ABC#16 = .ok (.addImm 0xA#4 0xBC#8) := by decide
theorem test_decode_8XY0 : decodeWord 0x8AB0#16 = .ok (.ldReg 0xA#4 0xB#4) := by decide
theorem test_decode_8XY1 : decodeWord 0x8AB1#16 = .ok (.orReg 0xA#4 0xB#4) := by decide
theorem test_decode_8XY2 : decodeWord 0x8AB2#16 = .ok (.andReg 0xA#4 0xB#4) := by decide
theorem test_decode_8XY3 : decodeWord 0x8AB3#16 = .ok (.xorReg 0xA#4 0xB#4) := by decide
theorem test_decode_8XY4 : decodeWord 0x8AB4#16 = .ok (.addReg 0xA#4 0xB#4) := by decide
theorem test_decode_8XY5 : decodeWord 0x8AB5#16 = .ok (.subReg 0xA#4 0xB#4) := by decide
theorem test_decode_8XY6 : decodeWord 0x8AB6#16 = .ok (.shr 0xA#4 0xB#4) := by decide
theorem test_decode_8XY7 : decodeWord 0x8AB7#16 = .ok (.subnReg 0xA#4 0xB#4) := by decide
theorem test_decode_8XYE : decodeWord 0x8ABE#16 = .ok (.shl 0xA#4 0xB#4) := by decide
theorem test_decode_9XYN : decodeWord 0x9ABC#16 = .ok (.sneReg 0xA#4 0xB#4 0xC#4) := by decide
theorem test_decode_ANNN : decodeWord 0xAABC#16 = .ok (.ldI 0xABC#12) := by decide
theorem test_decode_BNNN : decodeWord 0xBABC#16 = .ok (.jpV0 0xABC#12) := by decide
theorem test_decode_CXNN : decodeWord 0xCABC#16 = .ok (.rnd 0xA#4 0xBC#8) := by decide
theorem test_decode_DXYN : decodeWord 0xDABC#16 = .ok (.drw 0xA#4 0xB#4 0xC#4) := by decide
theorem test_decode_EX9E : decodeWord 0xEA9E#16 = .ok (.skp 0xA#4) := by decide
theorem test_decode_EXA1 : decodeWord 0xEAA1#16 = .ok (.sknp 0xA#4) := by decide
theorem test_decode_FX07 : decodeWord 0xFA07#16 = .ok (.ldVxDt 0xA#4) := by decide
theorem test_decode_FX0A : decodeWord 0xFA0A#16 = .ok (.ldVxK 0xA#4) := by decide
theorem test_decode_FX15 : decodeWord 0xFA15#16 = .ok (.ldDtVx 0xA#4) := by decide
theorem test_decode_FX18 : decodeWord 0xFA18#16 = .ok (.ldStVx 0xA#4) := by decide
theorem test_decode_FX1E : decodeWord 0xFA1E#16 = .ok (.addI 0xA#4) := by decide
theorem test_decode_FX29 : decodeWord 0xFA29#16 = .ok (.ldF 0xA#4) := by decide
theorem test_decode_FX33 : decodeWord 0xFA33#16 = .ok (.ldB 0xA#4) := by decide
theorem test_decode_FX55 : decodeWord 0xFA55#16 = .ok (.dump 0xA#4) := by decide
theorem test_decode_FX65 : decodeWord 0xFA65#16 = .ok (.load 0xA#4) := by decide

/-- T40, rows 40.1 to 40.4: the words that are refused, by name. -/
theorem test_decode_refuses :
    [0x0000#16, 0x0123#16, 0x01E0#16, 0x8008#16, 0x800F#16, 0xE000#16, 0xE09F#16, 0xF000#16, 0xF0FF#16, 0xF01F#16].all
      (fun w => decodeWord w = .error (.unrecognized w)) = true := by decide

/-- A byte string too short for a word is refused by name; the bytes after the word are left. -/
theorem test_decode_bytes :
    decode [] = .error .truncated ∧ decode [0x12#8] = .error .truncated ∧
    decode [0x12#8, 0x34#8, 0x56#8] = .ok (.jp 0x234#12, [0x56#8]) := by decide

/-- The table's own numbering: bit 0 is the least significant bit of the word (R77: the high byte comes first). -/
theorem test_decodeTableWord :
    decodeTableWord 16 0x8AB4 = some (.addReg 0xA#4 0xB#4) ∧ decodeTableWord 16 0x0000 = none := by decide

/-! ### WellFormed -/

/-- E7 and T70: an empty ROM and one of 3585 bytes are refused; 1 byte and 3584 bytes are accepted. -/
theorem test_rom_wellFormed :
    romWellFormed [] = false ∧ romWellFormed (List.replicate 3585 0) = false ∧
    romWellFormed [0x12] = true ∧ romWellFormed (List.replicate 3584 0) = true := by
  refine ⟨rfl, ?_, rfl, ?_⟩ <;> rw [romWellFormed, List.length_replicate] <;> rfl

/-- R379: an odd target of a jump or a call is refused, an even one accepted. -/
theorem test_target_wellFormed :
    (Instr.jp 0x201).wellFormed = false ∧ (Instr.call 0xFFF).wellFormed = false ∧
    (Instr.jp 0xFFE).wellFormed = true ∧ (Instr.call 0x200).wellFormed = true := by decide

/-! ### The cycle (T40) -/

/-- 40.1: an unrecognized word. -/
theorem test_unrecognized :
    after 0x0000 State.reset (fun t => (t.PC.toNat, records t, t.lifecycle)) =
      some (0x202, [(4, 0x200, 0)], .running) := by decide

/-- 40.5: the last word that can be fetched. -/
theorem test_fetch_last :
    stepped (withMem 0xFFE [0x6A, 0x2B] (State.reset.setPC 0xFFE)) (fun t => (t.getV 0xA, t.PC.toNat)) =
      some (0x2B, 0x1000) := by decide

/-- 40.7: a fetch out of range. -/
theorem test_fetch_outOfRange :
    stepped (State.reset.setPC 0xFFF) (fun t => (t.PC.toNat, t.lifecycle, records t)) =
      some (0xFFF, .paused, [(5, 0xFFF, 0)]) := by decide

/-- 40.8: an odd fetch. -/
theorem test_fetch_odd :
    stepped (withMem 0x201 [0x61, 0x07] (State.reset.setPC 0x201)) (fun t => (t.getV 1, t.PC.toNat)) =
      some (7, 0x203) := by decide

/-! ### Control transfer and skips (T41) -/

/-- 41.2. -/
theorem test_ret :
    after 0x00EE { State.reset with SP := 2, stack := State.reset.stack.set 1 0x456 }
      (fun t => (t.PC.toNat, t.SP.val, t.stack[1].toNat)) = some (0x456, 1, 0x456) := by decide

/-- 41.1. -/
theorem test_ret_empty :
    after 0x00EE State.reset (fun t => (t.SP.val, t.PC.toNat)) = some (0, 0x202) ∧
    after 0x00EE State.reset (fun t => (t.lifecycle, records t)) = some (.paused, [(3, 0x200, 0x00EE)]) := by decide

/-- 41.3, 41.5. -/
theorem test_jp :
    after 0x1234 State.reset (fun t => t.PC.toNat) = some 0x234 ∧
    after 0x1201 State.reset (fun t => t.PC.toNat) = some 0x201 := by decide

/-- 41.6. -/
theorem test_call :
    after 0x2300 (State.reset.setPC 0x204) (fun t => (t.stack[0].toNat, t.SP.val, t.PC.toNat)) =
      some (0x206, 1, 0x300) := by decide

/-- 41.7. -/
theorem test_call_full :
    after 0x2300 { State.reset with SP := 16 } (fun t => (t.SP.val, t.PC.toNat)) = some (16, 0x202) ∧
    after 0x2300 { State.reset with SP := 16 } (fun t => (t.lifecycle, records t)) =
      some (.paused, [(2, 0x200, 0x2300)]) := by decide

/-- 41.10, 41.11. -/
theorem test_seImm :
    after 0x3342 (withV [(3, 0x42)]) (fun t => t.PC.toNat) = some 0x204 ∧
    after 0x3342 (withV [(3, 0x41)]) (fun t => t.PC.toNat) = some 0x202 := by decide

/-- 41.12, 41.13. -/
theorem test_sneImm :
    after 0x4342 (withV [(3, 0x41)]) (fun t => t.PC.toNat) = some 0x204 ∧
    after 0x4342 (withV [(3, 0x42)]) (fun t => t.PC.toNat) = some 0x202 := by decide

/-- 41.15, 41.17. -/
theorem test_seReg :
    after 0x5120 (withV [(1, 7), (2, 8)]) (fun t => t.PC.toNat) = some 0x202 ∧
    after 0x5123 (withV [(1, 7), (2, 7)]) (fun t => t.PC.toNat) = some 0x204 := by decide

/-- 41.19, 41.20. -/
theorem test_sneReg :
    after 0x9110 State.reset (fun t => t.PC.toNat) = some 0x202 ∧
    after 0x912F (withV [(1, 7), (2, 8)]) (fun t => t.PC.toNat) = some 0x204 := by decide

/-- 41.22, 41.23. -/
theorem test_jpV0 :
    after 0xBFFF (withV [(0, 0xFF)]) (fun t => t.PC.toNat) = some 0x10FE ∧
    after 0xB200 (withV [(0, 0x01), (2, 0x50)]) (fun t => t.PC.toNat) = some 0x201 := by decide

/-! ### Loads, arithmetic, logic, shifts, random (T42) -/

/-- 42.1. -/
theorem test_ldImm : after 0x6005 State.reset (fun t => (t.getV 0, t.PC.toNat)) = some (0x05, 0x202) := by decide

/-- 42.4. -/
theorem test_addImm :
    after 0x7201 (withV [(2, 0xFF), (0xF, 0x77)]) (fun t => (t.getV 2, t.getV vf)) = some (0x00, 0x77) := by decide

/-- 42.6. -/
theorem test_ldReg : after 0x8120 (withV [(2, 0x33)]) (fun t => (t.getV 1, t.getV 2)) = some (0x33, 0x33) := by decide

/-- 42.7. -/
theorem test_orReg :
    after 0x8121 (withV [(1, 0x0F), (2, 0xF0), (0xF, 0x55)]) (fun t => (t.getV 1, t.getV vf)) =
      some (0xFF, 0x55) := by decide

/-- 42.8. -/
theorem test_andReg :
    after 0x8122 (withV [(1, 0x3C), (2, 0x0F), (0xF, 0x55)]) (fun t => (t.getV 1, t.getV vf)) =
      some (0x0C, 0x55) := by decide

/-- 42.9. -/
theorem test_xorReg :
    after 0x8123 (withV [(1, 0x3C), (2, 0x0F), (0xF, 0x55)]) (fun t => (t.getV 1, t.getV vf)) =
      some (0x33, 0x55) := by decide

/-- 42.10, 42.13. -/
theorem test_addReg :
    after 0x8124 (withV [(1, 0xFF), (2, 0x01)]) (fun t => (t.getV 1, t.getV vf)) = some (0x00, 1) ∧
    after 0x8F14 (withV [(0xF, 0xF0), (1, 0x20)]) (fun t => t.getV vf) = some 0x10 := by decide

/-- 42.17, 42.19. -/
theorem test_subReg :
    after 0x8125 (withV [(1, 3), (2, 5)]) (fun t => (t.getV 1, t.getV vf)) = some (0xFE, 0) ∧
    after 0x8125 (withV [(1, 5), (2, 5)]) (fun t => (t.getV 1, t.getV vf)) = some (0x00, 1) := by decide

/-- 42.18, 42.21. -/
theorem test_shr :
    after 0x8126 (withV [(1, 4), (2, 0xFF), (0xF, 9)]) (fun t => (t.getV 1, t.getV vf)) = some (0x02, 0) ∧
    after 0x8106 (withV [(1, 5)]) (fun t => (t.getV 1, t.getV vf)) = some (0x02, 1) := by decide

/-- 42.24, 42.26. -/
theorem test_subnReg :
    after 0x8127 (withV [(1, 3), (2, 5)]) (fun t => (t.getV 1, t.getV vf)) = some (0x02, 1) ∧
    after 0x8127 (withV [(1, 4), (2, 4)]) (fun t => (t.getV 1, t.getV vf)) = some (0x00, 1) := by decide

/-- 42.27, 42.29. -/
theorem test_shl :
    after 0x810E (withV [(1, 0x81)]) (fun t => (t.getV 1, t.getV vf)) = some (0x02, 1) ∧
    after 0x8FFE (withV [(0xF, 0x81)]) (fun t => t.getV vf) = some 0x02 := by decide

/-- 42.31, 42.32. -/
theorem test_rnd :
    after 0xC30F { State.reset with randIn := [0xAB, 0xCD] } (fun t => (t.getV 3, t.randIn)) =
      some (0x0B, [0xCD]) ∧
    after 0xC300 { State.reset with randIn := [0xAB] } (fun t => (t.getV 3, t.randIn)) = some (0x00, []) := by decide

/-! ### Display (T43) -/

/-- 43.1. -/
theorem test_cls :
    after 0x00E0 { State.reset.setV vf 9 with disp := Vector.replicate 32 (Vector.replicate 64 true) }
      (fun t => (litCount t, t.getV vf)) = some (0, 9) := by decide

/-- 43.6: the columns wrap; the row below the origin shows the glyph's hole. -/
theorem test_drw :
    after 0xD015 (withV [(0, 0x3E)]) (fun t => (litCount t, litIn 0 t, litIn 1 t, t.getV vf)) =
      some (14, [0, 1, 62, 63], [1, 62], 0) := by decide

/-- 43.9: two rows are out of range. -/
theorem test_drw_outOfRange :
    after 0xD014 (withMem 0xFFE [0xFF, 0x81] (State.reset.setI 0xFFE))
      (fun t => ([litIn 0 t, litIn 1 t, litIn 2 t], records t)) =
      some ([[0, 1, 2, 3, 4, 5, 6, 7], [0, 7], []], [(1, 0x200, 0xD014)]) := by decide

/-! ### Keypad and timers (T44) -/

/-- 44.1, 44.3. -/
theorem test_skp :
    after 0xE29E (withKeys [5] (withV [(2, 5)])) (fun t => t.PC.toNat) = some 0x204 ∧
    after 0xE29E (withKeys [0xA] (withV [(2, 0x1A)])) (fun t => t.PC.toNat) = some 0x204 := by decide

/-- 44.4, 44.5. -/
theorem test_sknp :
    after 0xE2A1 (withV [(2, 5)]) (fun t => t.PC.toNat) = some 0x204 ∧
    after 0xE2A1 (withKeys [5] (withV [(2, 5)])) (fun t => t.PC.toNat) = some 0x202 := by decide

/-- 44.6. -/
theorem test_ldVxDt :
    after 0xF307 (State.reset.setDT 0x3C) (fun t => (t.getV 3, t.DT)) = some (0x3C, 0x3C) := by decide

/-- 44.7, 44.9. -/
theorem test_ldVxK :
    after 0xF30A State.reset (fun t => t.PC.toNat) = some 0x200 ∧
    after 0xF30A (withKeys [9, 7]) (fun t => (t.getV 3, t.PC.toNat)) = some (7, 0x202) := by decide

/-- 44.11. -/
theorem test_ldDtVx : after 0xF315 (withV [(3, 0x3C)]) (fun t => (t.DT, t.ST)) = some (0x3C, 0) := by decide

/-- 44.12. -/
theorem test_ldStVx : after 0xF418 (withV [(4, 0x08)]) (fun t => (t.DT, t.ST)) = some (0, 0x08) := by decide

/-- 44.13, 44.15. -/
theorem test_tick :
    stepped { State.reset with DT := 1, ST := 5, pending := [.tick] } (fun t => (t.DT, t.ST)) = some (0, 4) ∧
    stepped { State.reset with DT := 3, lifecycle := .paused, pending := [.tick] } (fun t => t.DT) = some 3 := by
  decide

/-! ### Index register and memory (T45) -/

/-- 45.1. -/
theorem test_ldI : after 0xA2F0 State.reset (fun t => t.I.toNat) = some 0x2F0 := by decide

/-- 45.2, 45.4, 45.5a: both settings of the quirk. -/
theorem test_addI :
    after 0xF21E (withV [(2, 3), (0xF, 7)] (State.reset.setI 0xFFE)) (fun t => (t.I.toNat, t.getV vf)) =
      some (0x1001, 7) ∧
    after 0xF21E (withQuirks false true (withV [(2, 0x10), (0xF, 7)] (State.reset.setI 0x100)))
      (fun t => (t.I.toNat, t.getV vf)) = some (0x110, 0) := by decide

/-- 45.5a: X = F with the quirk. -/
theorem test_addI_vf :
    after 0xFF1E (withQuirks false true (withV [(0xF, 3)] (State.reset.setI 0xFFE)))
      (fun t => (t.I.toNat, t.getV vf)) = some (0x1001, 1) := by decide

/-- 45.7. -/
theorem test_ldF : after 0xF429 (withV [(4, 0x1B)]) (fun t => t.I.toNat) = some 0x037 := by decide

/-- 45.9. -/
theorem test_ldB :
    after 0xF533 (withV [(5, 254)] (State.reset.setI 0x300)) (fun t => (bytesAt 0x300 3 t, t.I.toNat)) =
      some ([some 2, some 5, some 4], 0x300) := by decide

/-- 45.13. -/
theorem test_ldB_outOfRange :
    after 0xF333 (withV [(3, 123)] (State.reset.setI 0xFFE)) (fun t => (bytesAt 0xFFE 3 t, records t)) =
      some ([some 1, some 2, none], [(1, 0x200, 0xF333)]) := by decide

/-- 45.14, 45.15: both settings of the quirk. -/
theorem test_dump :
    after 0xF255 (withV [(0, 1), (1, 2), (2, 3)] (State.reset.setI 0x300))
      (fun t => (bytesAt 0x300 4 t, t.I.toNat)) = some ([some 1, some 2, some 3, some 0], 0x300) ∧
    after 0xF255 (withQuirks true false (withV [(0, 1), (1, 2), (2, 3)] (State.reset.setI 0x300)))
      (fun t => (bytesAt 0x300 4 t, t.I.toNat)) = some ([some 1, some 2, some 3, some 0], 0x303) := by decide

/-- 45.17. -/
theorem test_dump_outOfRange :
    after 0xF355 (withQuirks true false (withV [(0, 1), (1, 2), (2, 3), (3, 4)] (State.reset.setI 0xFFE)))
      (fun t => (bytesAt 0xFFE 2 t, records t, t.I.toNat)) =
      some ([some 1, some 2], [(1, 0x200, 0xF355)], 0x1002) := by decide

/-- 45.18, 45.19: both settings of the quirk. -/
theorem test_load :
    after 0xF265 (withMem 0x300 [0x0A, 0x0B, 0x0C, 0x0D] (State.reset.setI 0x300))
      (fun t => ([t.getV 0, t.getV 1, t.getV 2, t.getV 3], t.I.toNat)) = some ([0x0A, 0x0B, 0x0C, 0], 0x300) ∧
    after 0xF265 (withQuirks true false (withMem 0x300 [0x0A, 0x0B, 0x0C, 0x0D] (State.reset.setI 0x300)))
      (fun t => ([t.getV 0, t.getV 1, t.getV 2, t.getV 3], t.I.toNat)) = some ([0x0A, 0x0B, 0x0C, 0], 0x303) := by
  decide

/-- 45.21. -/
theorem test_load_outOfRange :
    after 0xF365 (withMem 0xFFE [0xAA, 0xBB]
        (withV [(0, 0x11), (1, 0x22), (2, 0x33), (3, 0x44)] (State.reset.setI 0xFFE)))
      (fun t => ([t.getV 0, t.getV 1, t.getV 2, t.getV 3], records t)) =
      some ([0xAA, 0xBB, 0x33, 0x44], [(1, 0x200, 0xF365)]) := by decide

/-! ### Lifecycle and load (T60, T70) -/

/-- 60.1, 60.3, 60.5. -/
theorem test_lifecycle :
    stepped { State.reset with pending := [.pause] } (fun t => t.lifecycle) = some .paused ∧
    stepped { State.reset with lifecycle := .paused, pending := [.resume] } (fun t => t.lifecycle) = some .running ∧
    stepped { State.reset with lifecycle := .paused, pending := [.quit] } (fun t => t.lifecycle) = some .quit := by
  decide

/-- 70.4, 70.6: a one-byte ROM, loaded over a machine that ran. -/
theorem test_load_rom :
    stepped { State.reset.setV 3 9 with lifecycle := .quit, pending := [.load [0x12]] }
      (fun t => (bytesAt 0x200 2 t, t.getV 3, t.PC.toNat, t.lifecycle)) =
      some ([some 0x12, some 0], 0, 0x200, .running) := by decide

/-- 70.3, and the exit status of R307. -/
theorem test_load_empty :
    step { State.reset with pending := [.load []] } = .fault .emptyRom ∧
    exitStatus (.fault .emptyRom) = some .nonZero := ⟨rfl, rfl⟩

/-! ### Witnesses: concrete states and operands that meet the hypotheses of the statements

Each is named after its statement; where a statement has several clauses, each has its case here, at a boundary. -/

/-- A machine about to run the word `w` at the last address a word can be fetched from. -/
def aboutToRun (w : Word) : State := withMem 0xFFE [hiByte w, loByte w] (State.reset.setPC 0xFFE)

/-- A machine whose next event is `e`. -/
def due (e : Event) (s : State := State.reset) : State := { s with pending := [e] }

/-- The reset machine in Paused. -/
def pausedMachine : State := State.reset.setLifecycle .paused

/-- The reset machine after Quit. -/
def quitMachine : State := State.reset.setLifecycle .quit

theorem witness_EncodeOfDecode : decodeWord 0x8AB4#16 = .ok (.addReg 0xA#4 0xB#4) := by decide

theorem witness_RecognizedIffOneRowSelects :
    (⟨0x800E, 0xF00F⟩ : OpcodeRow) ∈ opcodeRows ∧ OpcodeRow.selects ⟨0x800E, 0xF00F⟩ 0x8ABE#16 = true := by decide

/-- One word of each class of R118, at its edge, and a recognized word beside it. -/
theorem witness_UnrecognizedWordsAreTheFourClasses :
    [0x0FFF#16, 0x8FF8#16, 0xEFA0#16, 0xFF66#16].all (fun w => decodeRow w = none) = true ∧
    [0x1000#16, 0x8FF7#16, 0xEFA1#16, 0xFF65#16].all (fun w => (decodeRow w).isSome) = true := by decide

theorem witness_StepRunsDecodedInstruction :
    (aboutToRun 0x6A2B).nextEvent = (.cycle, aboutToRun 0x6A2B) ∧
    (aboutToRun 0x6A2B).lifecycle = .running ∧
    (aboutToRun 0x6A2B).mem.read? (aboutToRun 0x6A2B).PC.toNat = some 0x6A#8 ∧
    (aboutToRun 0x6A2B).mem.read? ((aboutToRun 0x6A2B).PC.toNat + 1) = some 0x2B#8 ∧
    decodeWord (0x6A#8 ++ 0x2B#8) = .ok (.ldImm 0xA#4 0x2B#8) := by decide

theorem witness_UnrecognizedWordIsNoOp :
    (aboutToRun 0x8118).nextEvent = (.cycle, aboutToRun 0x8118) ∧
    (aboutToRun 0x8118).lifecycle = .running ∧
    (aboutToRun 0x8118).mem.read? (aboutToRun 0x8118).PC.toNat = some 0x81#8 ∧
    (aboutToRun 0x8118).mem.read? ((aboutToRun 0x8118).PC.toNat + 1) = some 0x18#8 ∧
    decodeWord (0x81#8 ++ 0x18#8) = .error (.unrecognized (0x81#8 ++ 0x18#8)) := by decide

theorem witness_FetchOutOfRangePauses :
    (State.reset.setPC 0xFFF).nextEvent = (.cycle, State.reset.setPC 0xFFF) ∧
    (State.reset.setPC 0xFFF).lifecycle = .running ∧ 4096 ≤ (State.reset.setPC 0xFFF).PC.toNat + 1 := by decide

theorem witness_NoCycleUnlessRunning :
    (pausedMachine.lifecycle ≠ .running ∧ pausedMachine.pending = []) ∧
    ((due .cycle quitMachine).lifecycle ≠ .running ∧ (due .cycle quitMachine).pending = .cycle :: []) := by decide

theorem witness_StoredWordIsFetchedNext : State.reset.mem.wf ∧ (aboutToRun 0x6A2B).mem.wf := by decide

/-- A draw that stands on the input, and none. -/
theorem witness_RandomMasksOneDraw :
    ({ State.reset with randIn := [0xAB] } : State).randIn = 0xAB :: [] ∧ State.reset.randIn = [] := by decide

theorem witness_CallPushesAndJumps :
    State.reset.SP.val < 16 ∧ ({ State.reset with SP := 15 } : State).SP.val < 16 := by decide

theorem witness_CallOnFullStackPauses : ({ State.reset with SP := 16 } : State).SP.val = 16 := by decide

theorem witness_ReturnPopsIntoPc :
    0 < ({ State.reset with SP := 1 } : State).SP.val ∧ 0 < ({ State.reset with SP := 16 } : State).SP.val := by decide

theorem witness_ReturnOnEmptyStackPauses : State.reset.SP.val = 0 := by decide

theorem witness_ReturnUndoesCall : ({ State.reset with SP := 15 } : State).SP.val < 16 := by decide

/-- Glyph 0 at (62, 0) covers pixel (1, 0), across the edge, and does not cover (2, 0). -/
theorem witness_covers :
    SpriteCovers (withV [(0, 0x3E)]) 0 1 5 1 0 ∧ ¬ SpriteCovers (withV [(0, 0x3E)]) 0 1 5 2 0 := by
  constructor
  · exact ⟨0, 3, 0xF0, by decide⟩
  · rintro ⟨r, b, row, hr, hb, hrow, hbit, hx, hy⟩
    have hy : r = 0 := by
      have : (0 : Nat) = ((withV [(0, 0x3E)]).getV 1).toNat % 32 + r := by
        have h1 : ((withV [(0, 0x3E)]).getV 1).toNat % 32 = 0 := by decide
        have h2 : r < 5 := hr
        have h3 : (0 : Nat) = (((withV [(0, 0x3E)]).getV 1).toNat % 32 + r) % 32 := hy
        omega
      omega
    have hb4 : b = 4 := by
      have h1 : ((withV [(0, 0x3E)]).getV 0).toNat % 64 = 62 := by decide
      have h3 : (2 : Nat) = (((withV [(0, 0x3E)]).getV 0).toNat % 64 + b) % 64 := hx
      omega
    subst hy hb4
    have : row = 0xF0 := by
      have h : (withV [(0, 0x3E)]).mem.read? ((withV [(0, 0x3E)]).I.toNat + 0) = some 0xF0 := by decide
      exact Option.some.inj (hrow.symm.trans h)
    subst this
    exact absurd hbit (by decide)

/-- The clauses of the draw statement: with a clear buffer no covered pixel is set, with a full one some is; a last row
in range (I = 0xFFB, 5 rows) and one out of range (I = 0xFFC). -/
theorem witness_DrawSpriteIsXorWithCollision :
    (¬ ∃ px py, SpriteCovers State.reset 0 1 5 px py ∧ State.reset.disp.pixel px py = true) ∧
    (∃ px py, SpriteCovers { State.reset with disp := Vector.replicate 32 (Vector.replicate 64 true) } 0 1 5 px py ∧
      Display.pixel (Vector.replicate 32 (Vector.replicate 64 true)) px py = true) ∧
    ¬ (0 < (5#4).toNat ∧ 4096 < (State.reset.setI 0xFFB).I.toNat + (5#4).toNat) ∧
    (0 < (5#4).toNat ∧ 4096 < (State.reset.setI 0xFFC).I.toNat + (5#4).toNat) := by
  refine ⟨?_, ⟨0, 0, ⟨0, 0, 0xF0, by decide⟩, by decide⟩, by decide, by decide⟩
  rintro ⟨px, py, -, h⟩
  simp [State.reset, State.resetWith, Display.pixel] at h

/-- Both clauses of the statement of two draws: on a clear buffer some covered pixel is clear; with N = 0 none is. -/
theorem witness_DrawTwiceRestoresBuffer :
    (0#4 ≠ vf ∧ 1#4 ≠ vf) ∧
    (∃ px py, SpriteCovers State.reset 0 1 5 px py ∧ State.reset.disp.pixel px py = false) ∧
    (¬ ∃ px py, SpriteCovers State.reset 0 1 0 px py ∧ State.reset.disp.pixel px py = false) := by
  refine ⟨by decide, ⟨0, 0, ⟨0, 0, 0xF0, by decide⟩, by decide⟩, ?_⟩
  rintro ⟨px, py, ⟨r, b, row, hr, -⟩, -⟩
  exact absurd hr (Nat.not_lt_zero r)

theorem witness_KeySkipsReadSnapshot :
    ((withV [(2, 0xFF)]).getV 2).toNat % 16 = (15 : Fin 16).val ∧
    ((withV [(2, 0x10)]).getV 2).toNat % 16 = (0 : Fin 16).val := by decide

/-- Only the highest key down; keys 0 and 15 down; none down. -/
theorem witness_WaitForKeyTakesLowestOrRollsBack :
    ((withKeys [0xF]).latchKeys.key[(15 : Fin 16).val] = true ∧
      ∀ j : Fin 16, j < 15 → (withKeys [0xF]).latchKeys.key[j.val] = false) ∧
    ((withKeys [0xF, 0]).latchKeys.key[(0 : Fin 16).val] = true ∧
      ∀ j : Fin 16, j < 0 → (withKeys [0xF, 0]).latchKeys.key[j.val] = false) ∧
    ∀ k : Fin 16, State.reset.key[k.val] = false := by decide

theorem witness_AddToIndexUnderBothQuirks :
    State.reset.cfg.quirkFx1eFlag = false ∧ (withQuirks false true).cfg.quirkFx1eFlag = true := by decide

/-- All three digits in range up to 0xFFF (I = 0xFFD), the last one out of range (I = 0xFFE), all out (I = 0x1000). -/
theorem witness_StoreBcdWritesThreeDigits :
    State.reset.mem.wf ∧
    (0xFFF < 4096 ∧ 0xFFF = (State.reset.setI 0xFFD).I.toNat + 2) ∧ ¬ 4096 ≤ (State.reset.setI 0xFFD).I.toNat + 2 ∧
    (0xFFF < 4096 ∧ 0xFFF = (State.reset.setI 0xFFE).I.toNat + 1) ∧ 4096 ≤ (State.reset.setI 0xFFE).I.toNat + 2 ∧
    (0xFFF < 4096 ∧ 0xFFF = (State.reset.setI 0xFFF).I.toNat) ∧
    (0xFFF < (State.reset.setI 0x1000).I.toNat ∧ 4096 ≤ (State.reset.setI 0x1000).I.toNat + 2) := by decide

/-- The last register in range at 0xFFF (I = 0xFFD, X = 2), one address below and one above the block, and a block that
passes the end (I = 0xFFE). -/
theorem witness_RegisterDumpStoresAscending :
    State.reset.mem.wf ∧
    ((2#4).toNat ≤ (2#4).toNat ∧ (State.reset.setI 0xFFD).I.toNat + (2#4).toNat < 4096) ∧
    (0xFFC < (State.reset.setI 0xFFD).I.toNat ∧ (State.reset.setI 0xFFC).I.toNat + (2#4).toNat + 1 ≤ 0xFFF) ∧
    4096 ≤ (State.reset.setI 0xFFE).I.toNat + (2#4).toNat ∧
    State.reset.cfg.quirkLsInc = false ∧ (withQuirks true false).cfg.quirkLsInc = true := by decide

/-- A byte in range at 0xFFF, a register above X, and a register whose byte is out of range. -/
theorem witness_RegisterLoadReadsAscending :
    ((2#4).toNat ≤ (2#4).toNat ∧ (State.reset.setI 0xFFD).mem.read? ((State.reset.setI 0xFFD).I.toNat + (2#4).toNat) = some 0) ∧
    (2#4).toNat < (3#4).toNat ∧ 4096 ≤ (State.reset.setI 0xFFE).I.toNat + (2#4).toNat := by decide

theorem witness_DumpThenLoadRestoresRegisters :
    State.reset.mem.wf ∧ State.reset.cfg.quirkLsInc = false ∧
    (State.reset.setI 0xFF0).I.toNat + (15#4).toNat < 4096 := by decide

theorem witness_TickDecrementsBothTimers :
    (due .tick).nextEvent = (.tick, State.reset) ∧ State.reset.lifecycle = .running := by decide

theorem witness_TimersFrozenUnlessRunning :
    (due .tick pausedMachine).nextEvent = (.tick, pausedMachine) ∧ pausedMachine.lifecycle ≠ .running ∧
    (due .tick quitMachine).nextEvent = (.tick, quitMachine) ∧ quitMachine.lifecycle ≠ .running := by decide

theorem witness_LifecycleSignals :
    (due .pause).nextEvent = (.pause, State.reset) ∧
    (due .resume pausedMachine).nextEvent = (.resume, pausedMachine) ∧
    (due .quit pausedMachine).nextEvent = (.quit, pausedMachine) := by decide

theorem witness_KeyWriteSetsOneFlag :
    (due (.keyWrite 0xF true) pausedMachine).nextEvent = (.keyWrite 0xF true, pausedMachine) ∧
    pausedMachine.lifecycle ≠ .quit := by decide

/-- The shortest ROM; the longest is in `witness_longest_rom`. -/
theorem witness_LoadRebuildsTheMachine :
    (due (.load [0x12]) quitMachine).nextEvent = (.load [0x12], quitMachine) ∧
    1 ≤ ([0x12] : List Byte).length ∧ ([0x12] : List Byte).length ≤ 3584 := by decide

theorem witness_longest_rom :
    (due (.load (List.replicate 3584 7))).nextEvent = (.load (List.replicate 3584 7), State.reset) ∧
    1 ≤ (List.replicate 3584 (7 : Byte)).length ∧ (List.replicate 3584 (7 : Byte)).length ≤ 3584 := by
  rw [List.length_replicate]
  exact ⟨rfl, by decide⟩

theorem witness_LoadRefusesBadLengths :
    ((due (.load [])).nextEvent = (.load [], State.reset) ∧ ([] : List Byte).length = 0) ∧
    ((due (.load (List.replicate 3585 7))).nextEvent = (.load (List.replicate 3585 7), State.reset) ∧
      3584 < (List.replicate 3585 (7 : Byte)).length) := by
  rw [List.length_replicate]
  exact ⟨by decide, rfl, by decide⟩

/-- The reset machine under strategy (b), with a batch of one cycle (IPS = 60). -/
def batchMachine : State := { State.reset with cfg := { Config.standard with sched := .b, ips := 60 } }

/-- An event due; none due under strategy (a); under (b) the last cycle of a batch, its end, and a paused machine. -/
theorem witness_BatchThenTick :
    (due .pause).pending = .pause :: [] ∧
    (State.reset.pending = [] ∧ State.reset.cfg.sched = .a) ∧
    (batchMachine.pending = [] ∧ batchMachine.cfg.sched = .b ∧ batchMachine.lifecycle = .running ∧
      batchMachine.batchPos < batchMachine.cfg.ips / 60) ∧
    (batchMachine.setBatchPos 1).cfg.ips / 60 ≤ (batchMachine.setBatchPos 1).batchPos ∧
    (batchMachine.setLifecycle .paused).lifecycle ≠ .running := by decide

theorem witness_ResetPcAndDisplay :
    (due (.load [0x12, 0x00]) pausedMachine).nextEvent = (.load [0x12, 0x00], pausedMachine) ∧
    1 ≤ ([0x12, 0x00] : List Byte).length ∧ ([0x12, 0x00] : List Byte).length ≤ 3584 := by decide

/-- A machine at the bounds of the invariant: PC 0x10FE, a full stack of 0x1000. -/
def extremeMachine : State :=
  { State.reset.setPC 0x10FE with SP := 16, stack := Vector.replicate 16 0x1000 }

theorem witness_StepKeepsInvariant :
    extremeMachine.Inv ∧ step extremeMachine = .next (fetchFault extremeMachine.latchKeys) := by
  refine ⟨⟨by decide, by decide, by decide, ?_, by decide⟩, rfl⟩
  intro d h
  cases h

/-- Each way a run can stop; the length too large is 3585 bytes (vector 70.2). -/
theorem witness_OnlyStartupErrorsStop :
    step (due (.load [])) = .fault .emptyRom ∧
    step (due (.load (List.replicate 3585 7))) = .fault .romTooLarge ∧
    step (due (.startupFailed .romUnreadable)) = .fault .romUnreadable ∧
    step (due (.startupFailed .initFailure)) = .fault .initFailure := by
  refine ⟨rfl, ?_, rfl, rfl⟩
  rw [step_of_nextEvent (t := State.reset) rfl, happen, loadRom_eq, List.length_replicate]
  rfl

/-- Each way to leave Running: Quit, Pause, a fetch out of range, a return on an empty stack, a call on a full one. -/
theorem witness_OnlyTheseLeaveRunning :
    (∃ t, step (due .quit) = .next t ∧ t.lifecycle = .quit) ∧
    (∃ t, step (due .pause) = .next t ∧ t.lifecycle = .paused) ∧
    (∃ t, step (State.reset.setPC 0xFFF) = .next t ∧ t.lifecycle = .paused) ∧
    (∃ t, step (aboutToRun 0x00EE) = .next t ∧ t.lifecycle = .paused) ∧
    (∃ t, step { aboutToRun 0x2300 with SP := 16 } = .next t ∧ t.lifecycle = .paused) :=
  ⟨⟨_, rfl, rfl⟩, ⟨_, rfl, rfl⟩, ⟨_, rfl, rfl⟩, ⟨_, rfl, rfl⟩, ⟨_, rfl, rfl⟩⟩

theorem witness_ParametersNeverChange :
    ∃ t, step (due (.load [0x12]) batchMachine) = .next t := ⟨_, rfl⟩

/-- A next state of `exec`, with an instruction that is no store. -/
theorem witness_OnlyBcdAndDumpStore :
    (∃ t, exec (.load 0xF) State.reset = .next t) ∧ (∀ x, Instr.load 0xF ≠ .ldB x) ∧
    (∀ x, Instr.load 0xF ≠ .dump x) :=
  ⟨⟨_, rfl⟩, by simp, by simp⟩

/-- A register that a load by X = 2 may not write; the destination of FX0A with no key pressed; VF for FX1E with the
quirk off. -/
theorem witness_RegisterWritersAreTheTable :
    ((∃ t, exec (.load 2) State.reset = .next t) ∧ ¬ mayWriteV State.reset (.load 2) 3) ∧
    ((∃ t, exec (.ldVxK 3) State.reset = .next t) ∧ ¬ mayWriteV State.reset (.ldVxK 3) 3) ∧
    ((∃ t, exec (.addI 3) State.reset = .next t) ∧ ¬ mayWriteV State.reset (.addI 3) vf) := by
  refine ⟨⟨⟨_, rfl⟩, ?_⟩, ⟨⟨_, rfl⟩, ?_⟩, ⟨_, rfl⟩, ?_⟩ <;> unfold mayWriteV <;> decide

/-- A change of each field that some instruction changes. -/
theorem witness_EveryFieldHasItsWriters :
    (∃ t, exec (.ldI 0x300) State.reset = .next t ∧ t.I ≠ State.reset.I) ∧
    (∃ t, exec (.call 0x300) State.reset = .next t ∧ t.SP ≠ State.reset.SP ∧ t.stack ≠ State.reset.stack) ∧
    (∃ t, exec (.ldDtVx 1) (withV [(1, 9)]) = .next t ∧ t.DT ≠ (withV [(1, 9)]).DT) ∧
    (∃ t, exec (.ldStVx 1) (withV [(1, 9)]) = .next t ∧ t.ST ≠ (withV [(1, 9)]).ST) ∧
    (∃ t, exec (.drw 0 1 5) State.reset = .next t ∧ t.disp ≠ State.reset.disp) := by
  refine ⟨⟨_, rfl, by decide⟩, ⟨_, rfl, by decide, by decide⟩, ⟨_, rfl, by decide⟩, ⟨_, rfl, by decide⟩, ?_⟩
  refine ⟨_, rfl, fun h => ?_⟩
  exact absurd (congrArg (fun d => Display.pixel d 0 0) h) (by decide)

theorem witness_SoundTimerIsNeverRead :
    (∀ x, Instr.ldVxDt 0xF ≠ .ldStVx x) ∧ ∃ t, exec (.ldVxDt 0xF) State.reset = .next t := ⟨by simp, _, rfl⟩

/-- An instruction that records, and one that does not. -/
theorem witness_AtMostOneDiagnosticPerInstruction :
    (∃ t, exec .ret State.reset = .next t ∧ t.diag ≠ State.reset.diag) ∧
    (∃ t, exec .cls State.reset = .next t ∧ t.diag = State.reset.diag) :=
  ⟨⟨_, rfl, by decide⟩, ⟨_, rfl, rfl⟩⟩

/-- Even flow, with an even jump, and with an indexed jump whose own target is even. -/
theorem witness_EvenFlowIsKept :
    State.reset.EvenFlow ∧
    ((Instr.jp 0xFFE).wellFormed = true ∧ (∀ nnn, Instr.jp 0xFFE = .jpV0 nnn → (nnn.toNat + (State.reset.getV 0).toNat) % 2 = 0) ∧
      ∃ t, exec (.jp 0xFFE) State.reset = .next t) ∧
    ((Instr.jpV0 0xFFF).wellFormed = true ∧ (0xFFF + ((withV [(0, 1)]).getV 0).toNat) % 2 = 0 ∧
      ∃ t, exec (.jpV0 0xFFF) (withV [(0, 1)]) = .next t) := by
  refine ⟨⟨by decide, by decide⟩, ⟨by decide, ?_, _, rfl⟩, by decide, by decide, _, rfl⟩
  intro nnn h
  cases h

/-! A fair run in which the delay timer counts down from 3: program P2 (`12 00`, a jump to itself) under strategy (b)
with one cycle for each tick. -/

/-- The run's state with `d` in the delay timer, `pos` cycles into its batch. -/
def loopMachine (d : Byte) (pos : Nat) : State :=
  { withMem 0x200 [0x12, 0x00] batchMachine with DT := d, batchPos := pos }

theorem nextEvent_loopMachine_cycle (d : Byte) : (loopMachine d 0).nextEvent = (.cycle, loopMachine d 1) := by
  have hb : (0 < 60 / 60) = True := by decide
  simp only [State.nextEvent, loopMachine, withMem, batchMachine, State.setMem, State.reset, State.resetWith,
    Config.batch, hb, if_true, State.setBatchPos]

theorem nextEvent_loopMachine_tick (d : Byte) : (loopMachine d 1).nextEvent = (.tick, loopMachine d 0) := by
  have hb : (1 < 60 / 60) = False := by decide
  simp only [State.nextEvent, loopMachine, withMem, batchMachine, State.setMem, State.reset, State.resetWith,
    Config.batch, hb, if_false, State.setBatchPos]

theorem step_loopMachine_cycle (d : Byte) : step (loopMachine d 0) = .next (loopMachine d 1) := by
  have hf : (loopMachine d 1).fetch = some 0x1200#16 :=
    (by decide : (withMem 0x200 [0x12, 0x00] batchMachine).fetch = some 0x1200#16)
  rw [step_of_nextEvent (nextEvent_loopMachine_cycle d)]
  exact (cycle_of_decode hf (by decide : decodeWord 0x1200#16 = .ok (.jp 0x200#12))).trans rfl

theorem step_loopMachine_tick (d : Byte) : step (loopMachine d 1) = .next (loopMachine (countDown d) 0) := by
  rw [step_of_nextEvent (nextEvent_loopMachine_tick d)]
  rfl

/-- State `n` of the run. -/
def loopRun (n : Nat) : State := loopMachine (BitVec.ofNat 8 (3 - n / 2)) (n % 2)

/-- Nothing arrives from outside. -/
def noArrivals (_ : Nat) : List Event := []

theorem receive_noArrivals (n : Nat) : (loopRun n).receive (noArrivals n) = loopRun n := rfl

theorem loopRun_even (k : Nat) : loopRun (2 * k) = loopMachine (BitVec.ofNat 8 (3 - k)) 0 := by
  rw [loopRun, show 2 * k / 2 = k by omega, show 2 * k % 2 = 0 by omega]

theorem loopRun_odd (k : Nat) : loopRun (2 * k + 1) = loopMachine (BitVec.ofNat 8 (3 - k)) 1 := by
  rw [loopRun, show (2 * k + 1) / 2 = k by omega, show (2 * k + 1) % 2 = 1 by omega]

theorem ofNat_countDown (k : Nat) :
    countDown (BitVec.ofNat 8 (3 - k)) = BitVec.ofNat 8 (3 - (k + 1)) := by
  apply BitVec.eq_of_toNat_eq
  rw [countDown_toNat, BitVec.toNat_ofNat, BitVec.toNat_ofNat]
  omega

theorem witness_FairRunTimerReachesZero :
    IsRun loopRun noArrivals ∧ WeaklyFair loopRun noArrivals ∧ (∀ n, (loopRun n).lifecycle = .running) ∧
    (∀ n, (loopRun (n + 1)).DT.toNat ≤ (loopRun n).DT.toNat) ∧ (loopRun 0).DT = 3 := by
  refine ⟨?_, ?_, fun _ => rfl, ?_, rfl⟩
  · intro n
    rw [receive_noArrivals]
    obtain ⟨k, rfl | rfl⟩ := Nat.even_or_odd' n
    · rw [loopRun_even, loopRun_odd, step_loopMachine_cycle]
    · rw [loopRun_odd, show 2 * k + 1 + 1 = 2 * (k + 1) by omega, loopRun_even, step_loopMachine_tick, ofNat_countDown]
  · intro n _
    refine ⟨⟨2 * n, by omega, ?_⟩, ⟨2 * n + 1, by omega, ?_⟩⟩
    · rw [eventAt, receive_noArrivals, loopRun_even, nextEvent_loopMachine_cycle]
    · rw [eventAt, receive_noArrivals, loopRun_odd, nextEvent_loopMachine_tick]
  · intro n
    show (BitVec.ofNat 8 (3 - (n + 1) / 2)).toNat ≤ (BitVec.ofNat 8 (3 - n / 2)).toNat
    rw [BitVec.toNat_ofNat, BitVec.toNat_ofNat]
    omega

end Sys2Proof.Tests
end

section
/-! SUPPORT. What an instruction and an event can do, said once as an inversion of `exec` and of `step`; then what follows field by field, and the invariant under each event (spec/10_state.md). -/

namespace Sys2Proof.Machine

/-! ### What an instruction can do -/

/-- The ways an instruction's meaning goes on from `s` (inversion of `exec`, see `exec_effect`). Two shapes stand
for many instructions: a write of general registers that R33's table lists, and a skip. -/
inductive Effect (s : State) : Instr → State → Prop where
  | regs {i : Instr} (v : Vector Byte 16)
      (h : ∀ r, ¬ mayWriteV s i r → (s.setRegs v).getV r = s.getV r) : Effect s i (s.setRegs v)
  | skip {i : Instr} (c : Bool) : Effect s i (s.skipIf c)
  | rnd (x : Nibble) (nn : Byte) : Effect s (.rnd x nn) (s.draw.2.setV x (s.draw.1 &&& nn))
  | rollBack (x : Nibble) : Effect s (.ldVxK x) (s.setPC (s.PC - 2))
  | jp (nnn : Addr) : Effect s (.jp nnn) (s.setPC (zext16 nnn))
  | jpV0 (nnn : Addr) : Effect s (.jpV0 nnn) (s.setPC (indexedTarget nnn (s.getV 0)))
  | ret (h : 0 < s.SP.val) :
      Effect s .ret { s with SP := ⟨s.SP.val - 1, by omega⟩, PC := s.stack[s.SP.val - 1]'(by omega) }
  | retEmpty (h : s.SP.val = 0) : Effect s .ret (s.raiseAt .stackUnderflow .ret)
  | call (nnn : Addr) (h : s.SP.val < 16) :
      Effect s (.call nnn)
        { s with stack := s.stack.set s.SP.val s.PC h, SP := ⟨s.SP.val + 1, by omega⟩, PC := zext16 nnn }
  | callFull (nnn : Addr) (h : s.SP.val = 16) : Effect s (.call nnn) (s.raiseAt .stackOverflow (.call nnn))
  | cls : Effect s .cls (s.setDisp Display.blank)
  | drw (x y n : Nibble) (d : Display) (hit oob : Bool) :
      Effect s (.drw x y n) (((s.setDisp d).setFlag hit).warnIf oob (.drw x y n))
  | ldDtVx (x : Nibble) : Effect s (.ldDtVx x) (s.setDT (s.getV x))
  | ldStVx (x : Nibble) : Effect s (.ldStVx x) (s.setST (s.getV x))
  | ldI (nnn : Addr) : Effect s (.ldI nnn) (s.setI (zext16 nnn))
  | ldF (x : Nibble) : Effect s (.ldF x) (s.setI (glyphAddr (lowNibble (s.getV x))))
  | addI (x : Nibble) (w : Word) (h : s.cfg.quirkFx1eFlag = false) : Effect s (.addI x) (s.setI w)
  | addIFlag (x : Nibble) (w : Word) (b : Bool) (h : s.cfg.quirkFx1eFlag = true) :
      Effect s (.addI x) ((s.setFlag b).setI w)
  | ldB (x : Nibble) (a : Nat) (vs : List Byte) (oob : Bool) :
      Effect s (.ldB x) ((s.setMem (s.mem.writeRun a vs)).warnIf oob (.ldB x))
  | dump (x : Nibble) (a : Nat) (vs : List Byte) (oob : Bool) :
      Effect s (.dump x) (((s.setMem (s.mem.writeRun a vs)).warnIf oob (.dump x)).bumpIndex x)
  | load (x : Nibble) (oob : Bool) :
      Effect s (.load x) (((s.setRegs (loadRegs s.mem s.I s.V (x.toNat + 1))).warnIf oob (.load x)).bumpIndex x)

variable {s t : State} {i : Instr}

/-- A write of one register that the table lists. -/
theorem Effect.setV {x : Nibble} (v : Byte) (hx : mayWriteV s i x) : Effect s i (s.setV x v) :=
  .regs _ fun _ hr => s.getV_setV_ne v fun h => hr (h ▸ hx)

/-- A write of the flag and then of a register, both of which the table lists. -/
theorem Effect.setFlagThenV {x : Nibble} (b : Bool) (v : Byte) (hf : mayWriteV s i vf) (hx : mayWriteV s i x) :
    Effect s i (s.setFlagThenV b x v) :=
  .regs _ fun r hr => by
    have hrx : r ≠ x := fun h => hr (h ▸ hx)
    have hrf : r ≠ vf := fun h => hr (h ▸ hf)
    exact (s.getV_setFlagThenV b x r v).trans (by rw [if_neg hrx, if_neg hrf])

/-- The scan finds a key only where one is down. -/
theorem State.exists_key_of_lowestKey {k : Nibble} (h : s.lowestKey = some k) :
    ∃ k : Fin 16, s.key[k.val] = true := by
  by_contra hn
  have hup : ∀ k : Fin 16, s.key[k.val] = false := fun k =>
    Bool.eq_false_iff.mpr fun hk => hn ⟨k, hk⟩
  rw [State.lowestKey, s.scanKeys_eq_none hup] at h
  cases h

theorem ldVxK_effect {x : Nibble} (h : exec (.ldVxK x) s = .next t) : Effect s (.ldVxK x) t := by
  change execLdVxK x s = .next t at h
  unfold execLdVxK at h
  split at h
  next k hk => cases h; exact .setV _ ⟨s.exists_key_of_lowestKey hk, rfl⟩
  next => cases h; exact .rollBack x

theorem ret_effect (h : exec .ret s = .next t) : Effect s .ret t := by
  change execRet s = .next t at h
  unfold execRet at h
  by_cases hsp : 0 < s.SP.val
  · rw [s.pop?_of_pos hsp] at h; cases h; exact .ret hsp
  · rw [s.pop?_empty (by omega)] at h; cases h; exact .retEmpty (by omega)

theorem call_effect {nnn : Addr} (h : exec (.call nnn) s = .next t) : Effect s (.call nnn) t := by
  change execCall nnn s = .next t at h
  unfold execCall at h
  by_cases hsp : s.SP.val < 16
  · rw [s.push?_of_lt _ hsp] at h; cases h; exact .call nnn hsp
  · rw [s.push?_full _ (by omega)] at h; cases h; exact .callFull nnn (by omega)

theorem addI_effect {x : Nibble} (h : exec (.addI x) s = .next t) : Effect s (.addI x) t := by
  cases h
  cases hq : s.cfg.quirkFx1eFlag
  · rw [if_neg (by simp)]; exact .addI x _ hq
  · rw [if_pos rfl]; exact .addIFlag x _ _ hq

/-- Everything an instruction can do. -/
theorem exec_effect (h : exec i s = .next t) : Effect s i t := by
  cases i with
  | cls => cases h; exact .cls
  | ret => exact ret_effect h
  | jp nnn => cases h; exact .jp nnn
  | call nnn => exact call_effect h
  | seImm x nn => cases h; exact .skip _
  | sneImm x nn => cases h; exact .skip _
  | seReg x y n => cases h; exact .skip _
  | ldImm x nn => cases h; exact .setV _ rfl
  | addImm x nn => cases h; exact .setV _ rfl
  | ldReg x y => cases h; exact .setV _ rfl
  | orReg x y => cases h; exact .setV _ rfl
  | andReg x y => cases h; exact .setV _ rfl
  | xorReg x y => cases h; exact .setV _ rfl
  | addReg x y => cases h; exact .setFlagThenV _ _ (.inl rfl) (.inr rfl)
  | subReg x y => cases h; exact .setFlagThenV _ _ (.inl rfl) (.inr rfl)
  | shr x y => cases h; exact .setFlagThenV _ _ (.inl rfl) (.inr rfl)
  | subnReg x y => cases h; exact .setFlagThenV _ _ (.inl rfl) (.inr rfl)
  | shl x y => cases h; exact .setFlagThenV _ _ (.inl rfl) (.inr rfl)
  | sneReg x y n => cases h; exact .skip _
  | ldI nnn => cases h; exact .ldI nnn
  | jpV0 nnn => cases h; exact .jpV0 nnn
  | rnd x nn => cases h; exact .rnd x nn
  | drw x y n => cases h; exact .drw x y n _ _ _
  | skp x => cases h; exact .skip _
  | sknp x => cases h; exact .skip _
  | ldVxDt x => cases h; exact .setV _ rfl
  | ldVxK x => exact ldVxK_effect h
  | ldDtVx x => cases h; exact .ldDtVx x
  | ldStVx x => cases h; exact .ldStVx x
  | addI x => exact addI_effect h
  | ldF x => cases h; exact .ldF x
  | ldB x => cases h; exact .ldB x _ _ _
  | dump x => cases h; exact .dump x _ _ _
  | load x => cases h; exact .load x _

/-! ### Field by field -/

/-- Raising a cause inside an instruction changes the three fields that `raise` does. -/
theorem State.raiseAt_eq (s : State) (c : Cause) (i : Instr) :
    s.raiseAt c i =
      { s with
        diag := s.diag ++ [⟨c, s.ipc, encode i⟩]
        lifecycle := if c.pauses then .paused else s.lifecycle
        batchPos := if c.pauses then 0 else s.batchPos } := s.raise_eq c s.ipc (encode i)

/-- A block transfer moves `I` only under the quirk (D24). -/
theorem State.quirkLsInc_of_I_ne {oob : Bool} {x : Nibble} (h : ((s.warnIf oob i).bumpIndex x).I ≠ s.I) :
    s.cfg.quirkLsInc = true := by
  by_contra hq
  exact h (by simp [bumpIndex_eq, warnIf_eq, hq])

open State (skipIf_eq warnIf_eq bumpIndex_eq raiseAt_eq)

theorem Effect.cfg (h : Effect s i t) : t.cfg = s.cfg := by
  cases h <;> simp [skipIf_eq, warnIf_eq, bumpIndex_eq, raiseAt_eq]

/-- An instruction leaves memory as it is, except FX33 and FX55, which store a run of bytes. -/
theorem Effect.mem (h : Effect s i t) :
    t.mem = s.mem ∨ (∃ a vs, t.mem = s.mem.writeRun a vs) ∧ ∃ x, i = .ldB x ∨ i = .dump x := by
  cases h with
  | ldB x a vs oob => exact .inr ⟨⟨a, vs, by simp [warnIf_eq]⟩, x, .inl rfl⟩
  | dump x a vs oob => exact .inr ⟨⟨a, vs, by simp [warnIf_eq, bumpIndex_eq]⟩, x, .inr rfl⟩
  | _ => exact .inl (by simp [skipIf_eq, warnIf_eq, bumpIndex_eq, raiseAt_eq])

theorem Effect.mem_wf (h : Effect s i t) (hs : s.mem.wf) : t.mem.wf := by
  rcases h.mem with hm | ⟨⟨a, vs, hm⟩, -⟩
  · rwa [hm]
  · rw [hm]; exact Memory.writeRun_wf hs a vs

/-- Only a pause ends a batch; no instruction moves the position otherwise. -/
theorem Effect.batchPos (h : Effect s i t) : t.batchPos = s.batchPos ∨ t.batchPos = 0 := by
  cases h with
  | retEmpty | callFull => exact .inr rfl
  | _ => exact .inl (by simp [skipIf_eq, warnIf_eq, bumpIndex_eq])

/-- A record an instruction adds is its own, under one of the first three causes (R312). -/
def Effect.Records (s : State) (i : Instr) (diag : List Diagnostic) : Prop :=
  diag = s.diag ∨ ∃ c, diag = s.diag ++ [⟨c, s.PC - 2, encode i⟩] ∧ 1 ≤ c.code ∧ c.code ≤ 3

/-- What a data instruction's warning adds. -/
theorem Effect.records_warnIf (s : State) (oob : Bool) (i : Instr) :
    Effect.Records s i (s.warnIf oob i).diag := by
  cases oob
  · exact .inl rfl
  · exact .inr ⟨.outOfBounds, rfl, by decide⟩

theorem Effect.diag (h : Effect s i t) : Effect.Records s i t.diag := by
  cases h with
  | drw x y n d hit oob => exact Effect.records_warnIf ((s.setDisp d).setFlag hit) oob _
  | ldB x a vs oob => exact Effect.records_warnIf (s.setMem _) oob _
  | dump x a vs oob => rw [bumpIndex_eq]; exact Effect.records_warnIf (s.setMem _) oob _
  | load x oob => rw [bumpIndex_eq]; exact Effect.records_warnIf (s.setRegs _) oob _
  | retEmpty => exact .inr ⟨.stackUnderflow, rfl, by decide⟩
  | callFull => exact .inr ⟨.stackOverflow, rfl, by decide⟩
  | _ => exact .inl (by simp [skipIf_eq])

/-- FX65 leaves the registers above X as they are (R265). -/
theorem getV_loadRegs_above {x r : Nibble} (h : ¬ r.toNat ≤ x.toNat) :
    (s.setRegs (loadRegs s.mem s.I s.V (x.toNat + 1))).getV r = s.getV r := by
  have hx := x.isLt
  show (loadRegs s.mem s.I s.V (x.toNat + 1))[r.toNat]'r.isLt = s.getV r
  rw [getElem_loadRegs _ _ _ _ (by omega) _ r.isLt, if_neg (by omega)]
  rfl

theorem Effect.getV (h : Effect s i t) {r : Nibble} (hr : ¬ mayWriteV s i r) : t.getV r = s.getV r := by
  cases h with
  | regs v hv => exact hv r hr
  | rnd x nn => rw [State.getV_setV_ne _ _ hr, State.getV_draw]
  | drw x y n d hit oob => rw [State.getV_warnIf, State.getV_setFlag, if_neg (show ¬ r = vf from hr), State.getV_setDisp]
  | addIFlag x w b hq => rw [State.getV_setI, State.getV_setFlag, if_neg fun h => hr ⟨hq, h⟩]
  | load x oob =>
    rw [bumpIndex_eq]
    exact (State.getV_warnIf _ oob _ r).trans (getV_loadRegs_above hr)
  | _ => simp [skipIf_eq, warnIf_eq, bumpIndex_eq, raiseAt_eq, State.getV]

theorem Effect.I_writer (h : Effect s i t) (hI : t.I ≠ s.I) :
    (∃ nnn, i = .ldI nnn) ∨ (∃ x, i = .addI x ∨ i = .ldF x) ∨
      (s.cfg.quirkLsInc = true ∧ ∃ x, i = .dump x ∨ i = .load x) := by
  cases h with
  | ldI nnn => exact .inl ⟨nnn, rfl⟩
  | ldF x => exact .inr (.inl ⟨x, .inr rfl⟩)
  | addI x | addIFlag x => exact .inr (.inl ⟨x, .inl rfl⟩)
  | dump x a vs oob =>
    have hq := State.quirkLsInc_of_I_ne (s := s.setMem (s.mem.writeRun a vs)) hI
    exact .inr (.inr ⟨hq, x, .inl rfl⟩)
  | load x oob =>
    have hq := State.quirkLsInc_of_I_ne (s := s.setRegs (loadRegs s.mem s.I s.V (x.toNat + 1))) hI
    exact .inr (.inr ⟨hq, x, .inr rfl⟩)
  | _ => exact absurd (by simp [skipIf_eq, warnIf_eq, raiseAt_eq]) hI

theorem Effect.SP_writer (h : Effect s i t) (hSP : t.SP ≠ s.SP) : i = .ret ∨ ∃ nnn, i = .call nnn := by
  cases h with
  | ret => exact .inl rfl
  | call nnn => exact .inr ⟨nnn, rfl⟩
  | _ => exact absurd (by simp [skipIf_eq, warnIf_eq, bumpIndex_eq, raiseAt_eq]) hSP

theorem Effect.stack_writer (h : Effect s i t) (hst : t.stack ≠ s.stack) : ∃ nnn, i = .call nnn := by
  cases h with
  | call nnn => exact ⟨nnn, rfl⟩
  | _ => exact absurd (by simp [skipIf_eq, warnIf_eq, bumpIndex_eq, raiseAt_eq]) hst

theorem Effect.DT_writer (h : Effect s i t) (hDT : t.DT ≠ s.DT) : ∃ x, i = .ldDtVx x := by
  cases h with
  | ldDtVx x => exact ⟨x, rfl⟩
  | _ => exact absurd (by simp [skipIf_eq, warnIf_eq, bumpIndex_eq, raiseAt_eq]) hDT

theorem Effect.ST_writer (h : Effect s i t) (hST : t.ST ≠ s.ST) : ∃ x, i = .ldStVx x := by
  cases h with
  | ldStVx x => exact ⟨x, rfl⟩
  | _ => exact absurd (by simp [skipIf_eq, warnIf_eq, bumpIndex_eq, raiseAt_eq]) hST

theorem Effect.disp_writer (h : Effect s i t) (hd : t.disp ≠ s.disp) : i = .cls ∨ ∃ x y n, i = .drw x y n := by
  cases h with
  | cls => exact .inl rfl
  | drw x y n => exact .inr ⟨x, y, n, rfl⟩
  | _ => exact absurd (by simp [skipIf_eq, warnIf_eq, bumpIndex_eq, raiseAt_eq]) hd

/-- No instruction touches the Keypad or the snapshot. -/
theorem Effect.keys (h : Effect s i t) : t.keypad = s.keypad ∧ t.key = s.key := by
  cases h <;> simp [skipIf_eq, warnIf_eq, bumpIndex_eq, raiseAt_eq]

/-! ### Jump targets -/

@[simp] theorem zext16_toNat (nnn : Addr) : (zext16 nnn).toNat = nnn.toNat :=
  BitVec.toNat_setWidth_of_le (by decide)

/-- A jump-indexed target never wraps: it is at most 0x0FFF + 0xFF (R38). -/
@[simp] theorem indexedTarget_toNat (nnn : Addr) (v : Byte) :
    (indexedTarget nnn v).toNat = nnn.toNat + v.toNat := by
  have := nnn.isLt
  have := v.isLt
  rw [indexedTarget, BitVec.toNat_ofNat, Nat.mod_eq_of_lt (by omega)]

/-! ### PC and the live return addresses -/

/-- Every live return address has the property `P`. -/
def State.StackAll (s : State) (P : Word → Prop) : Prop := ∀ j : Fin 16, j.val < s.SP.val → P s.stack[j.val]

/-- The return address that a call pushes is the PC it finds, so what holds of the live ones and of PC is kept. -/
theorem Effect.stackAll {P : Word → Prop} (h : Effect s i t) (hs : s.StackAll P) (hpc : P s.PC) : t.StackAll P := by
  cases h with
  | ret h0 => exact fun j hj => hs j (by have hj : j.val < s.SP.val - 1 := hj; omega)
  | call nnn h16 =>
    intro j hj
    have hj : j.val < s.SP.val + 1 := hj
    show P ((s.stack.set s.SP.val s.PC h16)[j.val])
    rw [Vector.getElem_set]
    split
    · exact hpc
    · exact hs j (by omega)
  | _ => simpa [State.StackAll, skipIf_eq, warnIf_eq, bumpIndex_eq, raiseAt_eq] using hs

/-- Where PC can go: it stays, skips a word, rolls back, jumps to the instruction's own target, or returns. -/
theorem Effect.pc {P : Word → Prop} (h : Effect s i t) (hpc : P s.PC) (hskip : P (s.PC + 2)) (hback : P (s.PC - 2))
    (hstack : s.StackAll P) (hjump : ∀ nnn, i = .jp nnn ∨ i = .call nnn → P (zext16 nnn))
    (hindexed : ∀ nnn, i = .jpV0 nnn → P (indexedTarget nnn (s.getV 0))) : P t.PC := by
  cases h with
  | skip c => cases c <;> assumption
  | rollBack => exact hback
  | jp nnn => exact hjump nnn (.inl rfl)
  | jpV0 nnn => exact hindexed nnn rfl
  | ret h0 => exact hstack ⟨s.SP.val - 1, by omega⟩ (by show s.SP.val - 1 < _; omega)
  | call nnn => exact hjump nnn (.inr rfl)
  | _ => simpa [warnIf_eq, bumpIndex_eq, raiseAt_eq] using hpc

/-! ### What a step can do -/

/-- The ways the event `e` answers a next state from `s` (inversion of `happen`, see `happen_next`). -/
inductive Happens (s : State) : Event → State → Prop where
  | idle (h : s.lifecycle ≠ .running) : Happens s .cycle s
  | fetchFault (h : s.lifecycle = .running) (hf : s.fetch = none) : Happens s .cycle (fetchFault s.latchKeys)
  | unrecognized (w : Word) (h : s.lifecycle = .running) (hf : s.fetch = some w) (hd : decodeRow w = none) :
      Happens s .cycle (unrecognizedNoOp w s.latchKeys.advance)
  | exec {t : State} (w : Word) (i : Instr) (h : s.lifecycle = .running) (hf : s.fetch = some w)
      (hd : decodeWord w = .ok i) (he : exec i s.latchKeys.advance = .next t) : Happens s .cycle t
  | tick : Happens s .tick s.tick
  | pause : Happens s .pause s.pauseSignal
  | resume : Happens s .resume s.resume
  | quit : Happens s .quit s.quitSignal
  | keyWrite (k : Nibble) (down : Bool) : Happens s (.keyWrite k down) (s.keyWrite k down)
  | load (rom : List Byte) (h₁ : 1 ≤ rom.length) (h₂ : rom.length ≤ maxRom) : Happens s (.load rom) (s.loaded rom)

theorem cycleEvent_next (h : cycleEvent s = .next t) : Happens s .cycle t := by
  by_cases hl : s.lifecycle = .running
  · rw [cycleEvent_running hl] at h
    rcases cycle_cases s with ⟨hf, hc⟩ | ⟨w, hf, hd, hc⟩ | ⟨w, i, hf, hd, hc⟩
    · rw [hc] at h; cases h; exact .fetchFault hl hf
    · rw [hc] at h; cases h; exact .unrecognized w hl hf hd
    · exact .exec w i hl hf hd (hc ▸ h)
  · rw [cycleEvent_idle hl] at h; cases h; exact .idle hl

theorem loadRom_next {rom : List Byte} (h : s.loadRom rom = .next t) : Happens s (.load rom) t := by
  rw [loadRom_eq] at h
  split_ifs at h with h₀ h₁
  cases h
  exact .load rom (Nat.pos_of_ne_zero h₀) (Nat.le_of_not_gt h₁)

/-- Everything an event can do, where it answers a next state. -/
theorem happen_next {e : Event} (h : happen e s = .next t) : Happens s e t := by
  cases e with
  | cycle => exact cycleEvent_next h
  | tick => cases h; exact .tick
  | pause => cases h; exact .pause
  | resume => cases h; exact .resume
  | quit => cases h; exact .quit
  | keyWrite k down => cases h; exact .keyWrite k down
  | load rom => exact loadRom_next h
  | startupFailed why => cases h

/-- Everything a step can do, where it answers a next state. -/
theorem step_next (h : step s = .next t) : Happens s.nextEvent.2 s.nextEvent.1 t := happen_next h

/-- A load of an acceptable length answers the rebuilt machine (R350). -/
theorem step_load {rom : List Byte} (h : s.nextEvent = (.load rom, t)) (h₁ : 1 ≤ rom.length)
    (h₂ : rom.length ≤ maxRom) : step s = .next (t.loaded rom) := by
  rw [step_of_nextEvent h]
  exact (loadRom_eq rom t).trans (by rw [if_neg (by omega), if_neg (by omega)])

/-- With nothing due, a machine that is not Running is offered a cycle, which is not enabled (log 2). -/
theorem nextEvent_idle (hl : s.lifecycle ≠ .running) (hp : s.pending = []) : s.nextEvent = (.cycle, s) := by
  unfold State.nextEvent
  rw [hp]
  dsimp only
  split
  · rfl
  · split
    · exact absurd ‹_› hl
    · rfl
    · rfl

/-! ### The invariant under each event -/

namespace State.Inv

/-- Choosing the next event keeps the batch position within the batch. -/
theorem nextEvent_batchPos_le (h : s.batchPos ≤ s.cfg.batch) : s.nextEvent.2.batchPos ≤ s.cfg.batch := by
  unfold State.nextEvent
  split
  · exact h
  · split
    · exact h
    · split
      · split
        · assumption
        · exact Nat.zero_le _
      · exact h
      · exact h

theorem nextEvent (h : s.Inv) : s.nextEvent.2.Inv := by
  have hb := nextEvent_batchPos_le h.batch_le
  rw [nextEvent_rest]
  exact ⟨h.mem_wf, h.pc_le, h.stack_le, h.diag_runtime, hb⟩

/-- The fields that the invariant does not speak of may change at will. -/
theorem frame (h : s.Inv)
    (ht : t = { s with
      V := t.V, I := t.I, DT := t.DT, ST := t.ST, keypad := t.keypad, key := t.key, disp := t.disp,
      lifecycle := t.lifecycle, pending := t.pending, randIn := t.randIn, draws := t.draws }) : t.Inv := by
  rw [ht]
  exact ⟨h.mem_wf, h.pc_le, h.stack_le, h.diag_runtime, h.batch_le⟩

/-- A batch may end at any time. -/
theorem halt (h : s.Inv) : s.halt.Inv := ⟨h.mem_wf, h.pc_le, h.stack_le, h.diag_runtime, Nat.zero_le _⟩

/-- One more record of a runtime cause. -/
theorem diag_append {ds : List Diagnostic} {d : Diagnostic} (h : ∀ d ∈ ds, 1 ≤ d.code ∧ d.code ≤ 5)
    (hd : 1 ≤ d.code ∧ d.code ≤ 5) : ∀ d' ∈ ds ++ [d], 1 ≤ d'.code ∧ d'.code ≤ 5 := by
  intro d' hmem
  rcases List.mem_append.mp hmem with hmem | hmem
  · exact h d' hmem
  · rw [List.mem_singleton.mp hmem]; exact hd

theorem record {c : Cause} (h : s.Inv) (hc : 1 ≤ c.code ∧ c.code ≤ 5) (pc w : Word) : (s.record ⟨c, pc, w⟩).Inv :=
  ⟨h.mem_wf, h.pc_le, h.stack_le, diag_append h.diag_runtime hc, h.batch_le⟩

/-- A fetch in range leaves PC, once advanced, between 2 and 0x1000 (R38). -/
theorem advance_pc {w : Word} (hf : s.fetch = some w) :
    2 ≤ s.advance.PC.toNat ∧ s.advance.PC.toNat ≤ 0x1000 := by
  have hlt : s.PC.toNat + 1 < 4096 := s.fetch_lt hf
  rw [State.advance_PC]
  constructor <;> bv_omega

theorem advance {w : Word} (h : s.Inv) (hf : s.fetch = some w) : s.latchKeys.advance.Inv :=
  ⟨h.mem_wf, (advance_pc (s := s.latchKeys) hf).2.trans (by decide), h.stack_le, h.diag_runtime, h.batch_le⟩

/-- An instruction keeps the invariant, from the PC that a fetch in range leaves. -/
theorem effect {i : Instr} (h : s.Inv) (hpc : 2 ≤ s.PC.toNat ∧ s.PC.toNat ≤ 0x1000) (he : Effect s i t) : t.Inv where
  mem_wf := he.mem_wf h.mem_wf
  pc_le := he.pc (P := fun a => a.toNat ≤ 0x10FE) h.pc_le (by bv_omega) (by bv_omega)
    (fun j hj => (h.stack_le j hj).trans (by decide)) (fun nnn _ => by rw [zext16_toNat]; omega)
    (fun nnn _ => by rw [indexedTarget_toNat]; omega)
  stack_le := he.stackAll (P := fun a => a.toNat ≤ 0x1000) h.stack_le hpc.2
  diag_runtime := by
    rcases he.diag with hd | ⟨c, hd, h₁, h₃⟩
    · rw [hd]; exact h.diag_runtime
    · rw [hd]; exact diag_append h.diag_runtime ⟨h₁, h₃.trans (by decide)⟩
  batch_le := by
    rw [he.cfg]
    rcases he.batchPos with hb | hb
    · rw [hb]; exact h.batch_le
    · rw [hb]; exact Nat.zero_le _

theorem tick (h : s.Inv) : s.tick.Inv := by
  by_cases hl : s.lifecycle = .running
  · rw [tick_running hl]; exact h.frame rfl
  · rwa [tick_idle hl]

theorem pauseSignal (h : s.Inv) : s.pauseSignal.Inv := by
  rw [pauseSignal_eq]
  split
  · exact h.halt
  · exact h

theorem keyWrite (h : s.Inv) (k : Nibble) (down : Bool) : (s.keyWrite k down).Inv := by
  by_cases hl : s.lifecycle = .quit
  · rw [State.keyWrite, hl]; exact h
  · rw [keyWrite_eq s k down hl]; exact h.frame rfl

/-- A load rebuilds everything the invariant speaks of except the diagnostics, which stay (R350, log 24). -/
theorem loaded (h : s.Inv) (rom : List Byte) : (s.loaded rom).Inv where
  mem_wf := Memory.writeRun_wf Memory.nil_wf _ rom
  pc_le := by show (0x200#16).toNat ≤ 0x10FE; decide
  stack_le := fun _ hj => absurd hj (Nat.not_lt_zero _)
  diag_runtime := h.diag_runtime
  batch_le := Nat.zero_le _

theorem happens {e : Event} (h : s.Inv) (he : Happens s e t) : t.Inv := by
  cases he with
  | idle => exact h
  | fetchFault => exact ((h.frame rfl : s.latchKeys.Inv).record (c := .fetchOutOfBounds) (by decide) _ _).halt
  | unrecognized w hl hf hd => exact (h.advance hf).record (c := .unrecognizedOpcode) (by decide) _ w
  | exec w i hl hf hd he => exact (h.advance hf).effect (advance_pc (s := s.latchKeys) hf) (exec_effect he)
  | tick => exact h.tick
  | pause => exact h.pauseSignal
  | resume => rw [State.resume_eq]; exact h.frame rfl
  | quit => exact h.frame rfl
  | keyWrite k down => exact h.keyWrite k down
  | load rom => exact h.loaded rom

/-- The reset state meets the invariant: memory lists nothing, and no return address is live. -/
theorem reset : State.reset.Inv where
  mem_wf := Memory.nil_wf
  pc_le := by decide
  stack_le := fun _ hj => absurd hj (Nat.not_lt_zero _)
  diag_runtime := fun _ hd => absurd hd List.not_mem_nil
  batch_le := Nat.zero_le _

end State.Inv

/-! ### Unlisted memory -/

/-- Beyond the font, memory that is not listed reads 0 (R59, D4). -/
theorem Memory.background_above_font {a : Nat} (h : 80 ≤ a) : background a = 0 :=
  List.getD_eq_default _ _ h

/-! ### The parameters under each event -/

theorem Happens.cfg {e : Event} (he : Happens s e t) : t.cfg = s.cfg := by
  cases he with
  | exec w i hl hf hd he => exact (exec_effect he).cfg
  | tick => unfold State.tick; split <;> rfl
  | pause => rw [pauseSignal_eq]; split <;> rfl
  | resume => rw [State.resume_eq]
  | keyWrite k down => unfold State.keyWrite; split <;> rfl
  | _ => rfl

theorem nextEvent_cfg (s : State) : s.nextEvent.2.cfg = s.cfg := by rw [nextEvent_rest]

/-! ### The sound timer and the instructions -/

namespace State

variable (s : State) (v : Byte)

theorem skipIf_setST (c : Bool) : (s.setST v).skipIf c = (s.skipIf c).setST v := by cases c <;> rfl

theorem warnIf_setST (oob : Bool) (i : Instr) : (s.setST v).warnIf oob i = (s.warnIf oob i).setST v := by
  cases oob <;> rfl

theorem bumpIndex_setST (x : Nibble) : (s.setST v).bumpIndex x = (s.bumpIndex x).setST v := by
  rw [bumpIndex_eq, bumpIndex_eq]; rfl

theorem draw_setST : (s.setST v).draw = (s.draw.1, s.draw.2.setST v) := by
  cases h : s.randIn with
  | nil => rw [s.draw_nil h, (s.setST v).draw_nil h]; rfl
  | cons b rest => rw [s.draw_cons h, (s.setST v).draw_cons h]; rfl

theorem scanKeys_setST (n : Nat) : (s.setST v).scanKeys n = s.scanKeys n := by
  induction n with
  | zero => rfl
  | succ n ih => rw [scanKeys, scanKeys, ih]; rfl

theorem lowestKey_setST : (s.setST v).lowestKey = s.lowestKey := s.scanKeys_setST v 16

theorem push?_setST (w : Word) : (s.setST v).push? w = (s.push? w).map (·.setST v) := by
  by_cases h : s.SP.val < 16
  · rw [s.push?_of_lt w h, (s.setST v).push?_of_lt w h]; rfl
  · rw [s.push?_full w (by omega), (s.setST v).push?_full w (by rw [setST_SP]; omega)]; rfl

theorem pop?_setST : (s.setST v).pop? = s.pop?.map fun p => (p.1, p.2.setST v) := by
  by_cases h : 0 < s.SP.val
  · rw [s.pop?_of_pos h, (s.setST v).pop?_of_pos h]; rfl
  · rw [s.pop?_empty (by omega), (s.setST v).pop?_empty (by rw [setST_SP]; omega)]; rfl

end State

theorem execRet_setST (v : Byte) (h : execRet s = .next t) : execRet (s.setST v) = .next (t.setST v) := by
  unfold execRet at h ⊢
  rw [State.pop?_setST]
  cases hp : s.pop? with
  | some p => rw [hp] at h; cases h; rfl
  | none => rw [hp] at h; cases h; rfl

theorem execCall_setST (v : Byte) {nnn : Addr} (h : execCall nnn s = .next t) :
    execCall nnn (s.setST v) = .next (t.setST v) := by
  unfold execCall at h ⊢
  rw [State.setST_PC, State.push?_setST]
  cases hp : s.push? s.PC with
  | some p => rw [hp] at h; cases h; rfl
  | none => rw [hp] at h; cases h; rfl

theorem execLdVxK_setST (v : Byte) {x : Nibble} (h : execLdVxK x s = .next t) :
    execLdVxK x (s.setST v) = .next (t.setST v) := by
  unfold execLdVxK at h ⊢
  rw [State.lowestKey_setST]
  cases hk : s.lowestKey with
  | some k => rw [hk] at h; cases h; rfl
  | none => rw [hk] at h; cases h; rfl

theorem execRnd_setST (v : Byte) {x : Nibble} {nn : Byte} (h : execRnd x nn s = .next t) :
    execRnd x nn (s.setST v) = .next (t.setST v) := by
  cases h
  rw [execRnd, State.draw_setST]
  rfl

theorem execAddI_setST (v : Byte) {x : Nibble} (h : execAddI x s = .next t) :
    execAddI x (s.setST v) = .next (t.setST v) := by
  unfold execAddI at h ⊢
  rw [State.setST_cfg]
  cases hq : s.cfg.quirkFx1eFlag
  · rw [hq] at h; cases h; rfl
  · rw [hq] at h; cases h; rfl

/-- An instruction other than FX18 does the same under any ST, and carries that ST along. -/
theorem exec_setST (v : Byte) (hi : ∀ x, i ≠ .ldStVx x) (h : exec i s = .next t) :
    exec i (s.setST v) = .next (t.setST v) := by
  cases i with
  | ldStVx x => exact absurd rfl (hi x)
  | ret => exact execRet_setST v h
  | call => exact execCall_setST v h
  | ldVxK => exact execLdVxK_setST v h
  | rnd => exact execRnd_setST v h
  | addI => exact execAddI_setST v h
  | seImm | sneImm | seReg | sneReg | skp | sknp => cases h; exact congrArg _ (s.skipIf_setST v _)
  | drw | ldB =>
    cases h
    rw [← State.warnIf_setST]
    rfl
  | dump | load =>
    cases h
    rw [← State.bumpIndex_setST, ← State.warnIf_setST]
    rfl
  | _ => cases h; rfl

end Sys2Proof.Machine
end

section
/-! The statements of 10_state.md. -/

namespace Sys2Proof.Proofs

open Sys2Proof Sys2Proof.Machine

/-- Settles O49: every way a step can go on keeps each part of the invariant; a fetch in range leaves PC between 2 and
0x1000, from where no instruction takes it past 0x10FE. -/
theorem stepKeepsInvariant : Obligations.StepKeepsInvariant :=
  fun _ _ hs h => hs.nextEvent.happens (step_next h)

/-- Settles O53: no event writes the parameters. -/
theorem parametersNeverChange : Obligations.ParametersNeverChange :=
  fun s _ h => (step_next h).cfg.trans (nextEvent_cfg s)

/-- Settles O55, from the cases of an instruction's effect. -/
theorem registerWritersAreTheTable : Obligations.RegisterWritersAreTheTable :=
  fun _ _ _ _ h hr => (exec_effect h).getV hr

/-- Settles O56, field by field from the cases of an instruction's effect. -/
theorem everyFieldHasItsWriters : Obligations.EveryFieldHasItsWriters := by
  intro i s t h
  have he := exec_effect h
  exact ⟨he.I_writer, he.SP_writer, he.stack_writer, he.DT_writer, he.ST_writer, he.disp_writer, he.keys⟩

/-- Settles O57: every shared operation commutes with a write of ST, and FX18 overwrites it. -/
theorem soundTimerIsNeverRead : Obligations.SoundTimerIsNeverRead :=
  ⟨fun _ _ _ v hi h => exec_setST v hi h, fun _ _ _ => rfl⟩

/-- Settles O59: PC moves by 2, to the instruction's own target, or to a live return address, and a call pushes PC. -/
theorem evenFlowIsKept : Obligations.EvenFlowIsKept := by
  intro i s t ⟨hpc, hstack⟩ hwf hindexed h
  have he := exec_effect h
  refine ⟨he.pc (P := fun a => a.toNat % 2 = 0) hpc (by bv_omega) (by bv_omega) hstack ?_ ?_,
    he.stackAll (P := fun a => a.toNat % 2 = 0) hstack hpc⟩
  · rintro nnn (rfl | rfl) <;> exact (congrArg (· % 2) (zext16_toNat nnn)).trans (eq_of_beq hwf)
  · exact fun nnn hi => (congrArg (· % 2) (indexedTarget_toNat nnn _)).trans (hindexed nnn hi)

/-- Settles O9: outside Running a cycle event, due or chosen, is not enabled. -/
theorem noCycleUnlessRunning : Obligations.NoCycleUnlessRunning := by
  intro s hl
  constructor
  · intro hp
    rw [step_of_nextEvent (nextEvent_idle hl hp)]
    exact cycleEvent_idle hl
  · intro rest hp
    rw [step_of_nextEvent (nextEvent_cons hp)]
    exact cycleEvent_idle (s := s.setPending rest) hl

/-- Settles O43, from the Keypad's one write. -/
theorem keyWriteSetsOneFlag : Obligations.KeyWriteSetsOneFlag := by
  intro s t k b h hl
  refine ⟨t.setKeypad (t.keypad.set k.toNat b k.isLt), ?_, fun j => ?_, rfl⟩
  · rw [step_of_nextEvent h]
    exact congrArg _ (keyWrite_eq t k b hl)
  · rw [State.setKeypad_keypad, Vector.getElem_set]
    exact if_congr eq_comm rfl rfl

/-- Settles O47: both states take PC and the display from the reset values. -/
theorem resetPcAndDisplay : Obligations.ResetPcAndDisplay := by
  refine ⟨⟨rfl, Display.pixel_blank⟩, fun s t rom h h₁ h₂ => ?_⟩
  exact ⟨t.loaded rom, step_load h h₁ h₂, rfl, Display.pixel_blank⟩

/-- Settles O48: the registers hold the constants of the reset state, and memory, which lists nothing, reads as its
background. -/
theorem resetRegistersAndFont : Obligations.ResetRegistersAndFont := by
  refine ⟨fun r => Vector.getElem_replicate r.isLt, rfl, rfl, fun j => Vector.getElem_replicate j.isLt, rfl, rfl,
    fun k => Vector.getElem_replicate k.isLt, fun k => Vector.getElem_replicate k.isLt, rfl, fun a h₁ h₂ => ?_, by rfl⟩
  exact (Memory.read?_of_lt [] h₂).trans (congrArg some (Memory.background_above_font h₁))

/-- Settles O50: the reset state lists no memory, no live return address and no diagnostic. -/
theorem resetMeetsInvariant : Obligations.ResetMeetsInvariant := ⟨State.Inv.reset, rfl, rfl, rfl⟩

end Sys2Proof.Proofs
end

section
/-! SUPPORT. A word in memory and the cycle that fetches it: an instruction's word decodes to it, a stored word is the one fetched, and a step whose event is an enabled cycle is that cycle (spec/20_memory.md, spec/40_cycle.md). -/

namespace Sys2Proof.Machine

open Sys2Proof.Laws

/-- The decoder reads every instruction's word as that instruction: the laws of the family RoundTrip, collected. -/
theorem decodeWord_encode (i : Instr) : decodeWord (encode i) = .ok i := by
  cases i with
  | cls => exact RoundTrip.cls
  | ret => exact RoundTrip.ret
  | jp nnn => exact RoundTrip.jp nnn
  | call nnn => exact RoundTrip.call nnn
  | seImm x nn => exact RoundTrip.seImm x nn
  | sneImm x nn => exact RoundTrip.sneImm x nn
  | seReg x y n => exact RoundTrip.seReg x y n
  | ldImm x nn => exact RoundTrip.ldImm x nn
  | addImm x nn => exact RoundTrip.addImm x nn
  | ldReg x y => exact RoundTrip.ldReg x y
  | orReg x y => exact RoundTrip.orReg x y
  | andReg x y => exact RoundTrip.andReg x y
  | xorReg x y => exact RoundTrip.xorReg x y
  | addReg x y => exact RoundTrip.addReg x y
  | subReg x y => exact RoundTrip.subReg x y
  | shr x y => exact RoundTrip.shr x y
  | subnReg x y => exact RoundTrip.subnReg x y
  | shl x y => exact RoundTrip.shl x y
  | sneReg x y n => exact RoundTrip.sneReg x y n
  | ldI nnn => exact RoundTrip.ldI nnn
  | jpV0 nnn => exact RoundTrip.jpV0 nnn
  | rnd x nn => exact RoundTrip.rnd x nn
  | drw x y n => exact RoundTrip.drw x y n
  | skp x => exact RoundTrip.skp x
  | sknp x => exact RoundTrip.sknp x
  | ldVxDt x => exact RoundTrip.ldVxDt x
  | ldVxK x => exact RoundTrip.ldVxK x
  | ldDtVx x => exact RoundTrip.ldDtVx x
  | ldStVx x => exact RoundTrip.ldStVx x
  | addI x => exact RoundTrip.addI x
  | ldF x => exact RoundTrip.ldF x
  | ldB x => exact RoundTrip.ldB x
  | dump x => exact RoundTrip.dump x
  | load x => exact RoundTrip.load x

variable {s t : State}

/-- A step whose event is a cycle that is enabled is that cycle. -/
theorem step_cycle (h : s.nextEvent = (.cycle, t)) (hl : t.lifecycle = .running) : step s = cycle t :=
  (step_of_nextEvent h).trans (cycleEvent_running hl)

/-- A fetch reads two bytes, the high one first (R77, R78). -/
theorem State.fetch_of_read? {hi lo : Byte} (hhi : s.mem.read? s.PC.toNat = some hi)
    (hlo : s.mem.read? (s.PC.toNat + 1) = some lo) : s.fetch = some (wordOfBytes hi lo) := by
  simp only [fetch, hhi, hlo]

/-- A word whose two bytes were stored at a PC in range is the word fetched there (R92, R376). -/
theorem State.fetch_of_stored {m : Memory} {w : Word} (hm : m.wf) (hpc : s.PC.toNat + 1 < memSize)
    (hs : s.mem = m.writeRun s.PC.toNat [hiByte w, loByte w]) : s.fetch = some w := by
  have hhi : s.mem.read? s.PC.toNat = some (hiByte w) := by
    rw [hs, Memory.read?_writeRun hm.1, dif_pos ⟨by omega, by simp, by omega⟩]
    simp
  have hlo : s.mem.read? (s.PC.toNat + 1) = some (loByte w) := by
    rw [hs, Memory.read?_writeRun hm.1, dif_pos ⟨by omega, by simp, hpc⟩]
    simp
  rw [s.fetch_of_read? hhi hlo, wordOfBytes_hi_lo]

/-- The loader's address can be fetched from (log 25). -/
theorem State.fetchAddr_lt (s : State) : s.fetchAddr.toNat + 1 < memSize := by
  unfold fetchAddr
  split
  · assumption
  · decide

/-- The loader of a whole word, with the word's two bytes named (log 25). -/
theorem State.withFetchWord_word (s : State) (w : Word) :
    s.withFetchWord 16 w.toNat =
      { s with
        PC := s.fetchAddr
        lifecycle := .running
        pending := .cycle :: s.pending
        mem := s.mem.writeRun s.fetchAddr.toNat [hiByte w, loByte w] } := by
  have hw : BitVec.ofNat 16 (w.toNat % 2 ^ 16) = w := by
    rw [Nat.mod_eq_of_lt w.isLt, BitVec.ofNat_toNat, BitVec.setWidth_eq]
  simp only [withFetchWord, hw]

end Sys2Proof.Machine
end

section
/-! The statements of 20_memory.md. -/

namespace Sys2Proof.Proofs

open Sys2Proof Sys2Proof.Machine

/-- Settles O10: the loader stores the word where the next cycle fetches, and the fetched word decodes to the
instruction. -/
theorem storedWordIsFetchedNext : Obligations.StoredWordIsFetchedNext := by
  intro s i hm
  rw [s.withFetchWord_word, step_cycle (nextEvent_cons rfl) rfl]
  exact cycle_of_decode (State.fetch_of_stored hm s.fetchAddr_lt rfl) (decodeWord_encode i)

/-- Settles O54, from the cases of an instruction's effect on memory. -/
theorem onlyBcdAndDumpStore : Obligations.OnlyBcdAndDumpStore := by
  intro i s t h hldB hdump a
  rcases (exec_effect h).mem with hm | ⟨-, x, hx | hx⟩
  · rw [hm]
  · exact absurd hx (hldB x)
  · exact absurd hx (hdump x)

/-- Settles O8: the fetch reads nothing, and the cycle's fault is a raise of a pausing cause. -/
theorem fetchOutOfRangePauses : Obligations.FetchOutOfRangePauses := by
  refine ⟨rfl, fun s t h hl hpc => ?_⟩
  rw [step_cycle h hl, cycle_of_noFetch (t.fetch_of_ge hpc)]
  exact congrArg _ (t.latchKeys.raise_eq .fetchOutOfBounds t.PC 0)

end Sys2Proof.Proofs
end

section
/-! SUPPORT. The decoder and the opcode map, word by word: a word from its operation nibble and its selector, what the high nibble decides, the words that get no instruction, and what the test of a row says of the fields (spec/30_encoding.md). -/

namespace Sys2Proof

variable {w : Word} {i : Instr}

/-! ### A word from its operation nibble and its selector -/

theorem wordNNN_of_opField {op : Nibble} (hop : opField w = op) : wordNNN op (nnnField w) = w := by
  rw [← hop, wordNNN_fields]

theorem wordXNN_of_opField {op : Nibble} {nn : Byte} (hop : opField w = op) (hnn : nnField w = nn) :
    wordXNN op (xField w) nn = w := by
  rw [← hop, ← hnn, wordXNN_fields]

theorem wordXYN_of_opField {op n : Nibble} (hop : opField w = op) (hn : nField w = n) :
    wordXYN op (xField w) (yField w) n = w := by
  rw [← hop, ← hn, wordXYN_fields]

/-! ### The overloaded families

In each, the instruction of a word has that word, and the words without one are those of R118. -/

/-- One selector of a family: its instruction has the word, or the search goes on. -/
theorem encode_of_ite {c : Prop} [Decidable c] {j : Instr} {rest : Option Instr} (hsel : c → encode j = w)
    (hrest : rest = some i → encode i = w) : (if c then some j else rest) = some i → encode i = w := by
  split
  case isTrue hc => rintro ⟨⟩; exact hsel hc
  case isFalse => exact hrest

theorem encode_of_decodeFamily0 : decodeFamily0 w = some i → encode i = w :=
  encode_of_ite Eq.symm (encode_of_ite Eq.symm nofun)

theorem encode_of_decodeFamily8 (hop : opField w = 0x8#4) (h : decodeFamily8 w = some i) : encode i = w := by
  unfold decodeFamily8 at h
  split at h <;> cases h <;> exact wordXYN_of_opField hop (BitVec.eq_of_toNat_eq ‹_›)

theorem encode_of_decodeFamilyE (hop : opField w = 0xE#4) : decodeFamilyE w = some i → encode i = w :=
  encode_of_ite (wordXNN_of_opField hop) (encode_of_ite (wordXNN_of_opField hop) nofun)

theorem encode_of_decodeFamilyF (hop : opField w = 0xF#4) : decodeFamilyF w = some i → encode i = w := by
  unfold decodeFamilyF
  iterate 9 refine encode_of_ite (wordXNN_of_opField hop) ?_
  exact nofun

theorem decodeFamily0_eq_none : decodeFamily0 w = none ↔ w ≠ 0x00E0#16 ∧ w ≠ 0x00EE#16 := by
  simp [decodeFamily0, ite_eq_iff]

theorem decodeFamily8_eq_none :
    decodeFamily8 w = none ↔ nField w ∈ [0x8#4, 0x9#4, 0xA#4, 0xB#4, 0xC#4, 0xD#4, 0xF#4] := by
  unfold decodeFamily8
  split
  case h_10 =>
    refine iff_of_true rfl ?_
    have hlt : (nField w).toNat < 16 := (nField w).isLt
    simp only [imp_false] at *
    simp only [List.mem_cons, List.not_mem_nil, or_false, ← BitVec.toNat_inj, BitVec.toNat_ofNat]
    omega
  all_goals simp [← BitVec.toNat_inj, *]

theorem decodeFamilyE_eq_none : decodeFamilyE w = none ↔ nnField w ∉ [0x9E#8, 0xA1#8] := by
  simp [decodeFamilyE, ite_eq_iff]

theorem decodeFamilyF_eq_none :
    decodeFamilyF w = none ↔
      nnField w ∉ [0x07#8, 0x0A#8, 0x15#8, 0x18#8, 0x1E#8, 0x29#8, 0x33#8, 0x55#8, 0x65#8] := by
  simp [decodeFamilyF, ite_eq_iff]

/-! ### What the high nibble decides -/

/-- The dispatch of R114: the overloaded families 0, 8, E and F go on to their selector; in every other family each
word is the word of an instruction. -/
inductive RowDispatch (w : Word) : Prop where
  | family0 (hop : opField w = 0x0#4) (h : decodeRow w = decodeFamily0 w)
  | family8 (hop : opField w = 0x8#4) (h : decodeRow w = decodeFamily8 w)
  | familyE (hop : opField w = 0xE#4) (h : decodeRow w = decodeFamilyE w)
  | familyF (hop : opField w = 0xF#4) (h : decodeRow w = decodeFamilyF w)
  | plain (i : Instr) (hop : opField w ∉ [0x0#4, 0x8#4, 0xE#4, 0xF#4]) (h : decodeRow w = some i) (hi : encode i = w)

theorem rowDispatch (w : Word) : RowDispatch w := by
  have hrow := decodeRow.eq_def w
  split at hrow
  case h_1 hop => exact .family0 (BitVec.eq_of_toNat_eq hop) hrow
  case h_9 hop => exact .family8 (BitVec.eq_of_toNat_eq hop) hrow
  case h_15 hop => exact .familyE (BitVec.eq_of_toNat_eq hop) hrow
  case h_16 =>
    have hlt : (opField w).toNat < 16 := (opField w).isLt
    have hop : (opField w).toNat = 0xF := by simp only [imp_false] at *; omega
    exact .familyF (BitVec.eq_of_toNat_eq hop) hrow
  case h_2 hop | h_3 hop | h_11 hop | h_12 hop =>
    exact .plain _ (by simp [← BitVec.toNat_inj, hop]) hrow (wordNNN_of_opField (BitVec.eq_of_toNat_eq hop))
  case h_4 hop | h_5 hop | h_7 hop | h_8 hop | h_13 hop =>
    exact .plain _ (by simp [← BitVec.toNat_inj, hop]) hrow (wordXNN_of_opField (BitVec.eq_of_toNat_eq hop) rfl)
  case h_6 hop | h_10 hop | h_14 hop =>
    exact .plain _ (by simp [← BitVec.toNat_inj, hop]) hrow (wordXYN_of_opField (BitVec.eq_of_toNat_eq hop) rfl)

/-- The instruction of a word has no other word (R115). -/
theorem encode_of_decodeRow (h : decodeRow w = some i) : encode i = w := by
  cases rowDispatch w with
  | family0 hop hrow => exact encode_of_decodeFamily0 (hrow ▸ h)
  | family8 hop hrow => exact encode_of_decodeFamily8 hop (hrow ▸ h)
  | familyE hop hrow => exact encode_of_decodeFamilyE hop (hrow ▸ h)
  | familyF hop hrow => exact encode_of_decodeFamilyF hop (hrow ▸ h)
  | plain j hop hrow hj => exact Option.some.inj (hrow.symm.trans h) ▸ hj

/-- The words without an instruction, by their fields (R118). -/
theorem decodeRow_eq_none :
    decodeRow w = none ↔
      (opField w = 0x0#4 ∧ w ≠ 0x00E0#16 ∧ w ≠ 0x00EE#16) ∨
      (opField w = 0x8#4 ∧ nField w ∈ [0x8#4, 0x9#4, 0xA#4, 0xB#4, 0xC#4, 0xD#4, 0xF#4]) ∨
      (opField w = 0xE#4 ∧ nnField w ∉ [0x9E#8, 0xA1#8]) ∨
      (opField w = 0xF#4 ∧
        nnField w ∉ [0x07#8, 0x0A#8, 0x15#8, 0x18#8, 0x1E#8, 0x29#8, 0x33#8, 0x55#8, 0x65#8]) := by
  cases rowDispatch w with
  | family0 hop hrow => rw [hrow, decodeFamily0_eq_none]; simp [hop]
  | family8 hop hrow => rw [hrow, decodeFamily8_eq_none]; simp [hop]
  | familyE hop hrow => rw [hrow, decodeFamilyE_eq_none]; simp [hop]
  | familyF hop hrow => rw [hrow, decodeFamilyF_eq_none]; simp [hop]
  | plain i hop hrow hi =>
    have hne : opField w ≠ 0x0#4 ∧ opField w ≠ 0x8#4 ∧ opField w ≠ 0xE#4 ∧ opField w ≠ 0xF#4 := by simpa using hop
    simp [hrow, hne]

/-! ### Fields as numbers -/

theorem opField_eq_iff {op : Nibble} : opField w = op ↔ w.toNat / 0x1000 = op.toNat := by
  rw [← BitVec.toNat_inj, opField, BitVec.extractLsb'_toNat, Nat.shiftRight_eq_div_pow]
  omega

theorem nField_eq_iff {n : Nibble} : nField w = n ↔ w.toNat % 0x10 = n.toNat := by
  rw [← BitVec.toNat_inj, nField, BitVec.extractLsb'_toNat, Nat.shiftRight_zero]

theorem nnField_eq_iff {nn : Byte} : nnField w = nn ↔ w.toNat % 0x100 = nn.toNat := by
  rw [← BitVec.toNat_inj, nnField, BitVec.extractLsb'_toNat, Nat.shiftRight_zero]

/-! ### The rows of the opcode map -/

theorem eq_iff_fieldsXNN {v : Word} :
    v = w ↔ opField v = opField w ∧ xField v = xField w ∧ nnField v = nnField w := by
  refine ⟨by rintro rfl; simp, fun ⟨hop, hx, hnn⟩ => ?_⟩
  rw [← wordXNN_fields v, hop, hx, hnn, wordXNN_fields]

theorem eq_iff_fieldsXYN {v : Word} :
    v = w ↔ opField v = opField w ∧ xField v = xField w ∧ yField v = yField w ∧ nField v = nField w := by
  refine ⟨by rintro rfl; simp, fun ⟨hop, hx, hy, hn⟩ => ?_⟩
  rw [← wordXYN_fields v, hop, hx, hy, hn, wordXYN_fields]

namespace OpcodeRow

variable {p m : Word}

/-- The test of a row, field by field. -/
theorem selects_iff_fieldsXNN :
    selects ⟨p, m⟩ w = true ↔
      opField w &&& opField m = opField p ∧ xField w &&& xField m = xField p ∧
      nnField w &&& nnField m = nnField p := by
  have hop : opField (w &&& m) = opField w &&& opField m := BitVec.extractLsb'_and
  have hx : xField (w &&& m) = xField w &&& xField m := BitVec.extractLsb'_and
  have hnn : nnField (w &&& m) = nnField w &&& nnField m := BitVec.extractLsb'_and
  rw [selects, beq_iff_eq, eq_iff_fieldsXNN, hop, hx, hnn]

/-- The test of a row, field by field, the low byte in two. -/
theorem selects_iff_fieldsXYN :
    selects ⟨p, m⟩ w = true ↔
      opField w &&& opField m = opField p ∧ xField w &&& xField m = xField p ∧
      yField w &&& yField m = yField p ∧ nField w &&& nField m = nField p := by
  have hop : opField (w &&& m) = opField w &&& opField m := BitVec.extractLsb'_and
  have hx : xField (w &&& m) = xField w &&& xField m := BitVec.extractLsb'_and
  have hy : yField (w &&& m) = yField w &&& yField m := BitVec.extractLsb'_and
  have hn : nField (w &&& m) = nField w &&& nField m := BitVec.extractLsb'_and
  rw [selects, beq_iff_eq, eq_iff_fieldsXYN, hop, hx, hy, hn]

/-- A row whose whole word selects (R116). -/
@[simp] theorem selects_maskFFFF : selects ⟨p, 0xFFFF#16⟩ w = true ↔ opField w = p.extractLsb' 12 4 ∧ w = p := by
  have hw : w &&& 0xFFFF#16 = w := BitVec.and_allOnes
  rw [selects, hw, beq_iff_eq]
  exact ⟨fun e => ⟨congrArg opField e, e⟩, And.right⟩

@[simp] theorem selects_maskF000 (hx : p.extractLsb' 8 4 = 0) (hnn : p.extractLsb' 0 8 = 0) :
    selects ⟨p, 0xF000#16⟩ w = true ↔ opField w = p.extractLsb' 12 4 := by
  rw [selects_iff_fieldsXNN]
  have hop : opField w &&& opField 0xF000#16 = opField w := BitVec.and_allOnes
  have hx : xField w &&& xField 0xF000#16 = xField p := BitVec.and_zero.trans hx.symm
  have hnn : nnField w &&& nnField 0xF000#16 = nnField p := BitVec.and_zero.trans hnn.symm
  simp only [hop, hx, hnn, and_true]
  rfl

@[simp] theorem selects_maskF0FF (hx : p.extractLsb' 8 4 = 0) :
    selects ⟨p, 0xF0FF#16⟩ w = true ↔ opField w = p.extractLsb' 12 4 ∧ nnField w = p.extractLsb' 0 8 := by
  rw [selects_iff_fieldsXNN]
  have hop : opField w &&& opField 0xF0FF#16 = opField w := BitVec.and_allOnes
  have hx : xField w &&& xField 0xF0FF#16 = xField p := BitVec.and_zero.trans hx.symm
  have hnn : nnField w &&& nnField 0xF0FF#16 = nnField w := BitVec.and_allOnes
  simp only [hop, hx, hnn, true_and]
  rfl

@[simp] theorem selects_maskF00F (hx : p.extractLsb' 8 4 = 0) (hy : p.extractLsb' 4 4 = 0) :
    selects ⟨p, 0xF00F#16⟩ w = true ↔ opField w = p.extractLsb' 12 4 ∧ nField w = p.extractLsb' 0 4 := by
  rw [selects_iff_fieldsXYN]
  have hop : opField w &&& opField 0xF00F#16 = opField w := BitVec.and_allOnes
  have hx : xField w &&& xField 0xF00F#16 = xField p := BitVec.and_zero.trans hx.symm
  have hy : yField w &&& yField 0xF00F#16 = yField p := BitVec.and_zero.trans hy.symm
  have hn : nField w &&& nField 0xF00F#16 = nField w := BitVec.and_allOnes
  simp only [hop, hx, hy, hn, true_and]
  rfl

end OpcodeRow

/-- A row selects a word iff the word has an instruction. -/
theorem exists_selects_iff : (∃ r ∈ opcodeRows, r.selects w = true) ↔ decodeRow w ≠ none := by
  cases rowDispatch w with
  | family0 hop hrow =>
    have hrows : (∃ r ∈ opcodeRows, r.selects w = true) ↔ w = 0x00E0#16 ∨ w = 0x00EE#16 := by
      simp [opcodeRows, hop]
    rw [hrow, hrows, Ne, decodeFamily0_eq_none, not_and_or, not_ne_iff, not_ne_iff]
  | family8 hop hrow =>
    have hrows : (∃ r ∈ opcodeRows, r.selects w = true) ↔
        nField w ∈ [0x0#4, 0x1#4, 0x2#4, 0x3#4, 0x4#4, 0x5#4, 0x6#4, 0x7#4, 0xE#4] := by
      simp [opcodeRows, hop]
    have hcompl : ∀ n : Nibble, n ∈ [0x0#4, 0x1#4, 0x2#4, 0x3#4, 0x4#4, 0x5#4, 0x6#4, 0x7#4, 0xE#4] ↔
        n ∉ [0x8#4, 0x9#4, 0xA#4, 0xB#4, 0xC#4, 0xD#4, 0xF#4] := by decide
    rw [hrow, hrows, Ne, decodeFamily8_eq_none, hcompl]
  | familyE hop hrow =>
    rw [hrow, Ne, decodeFamilyE_eq_none, not_not]
    simp [opcodeRows, hop]
  | familyF hop hrow =>
    rw [hrow, Ne, decodeFamilyF_eq_none, not_not]
    simp [opcodeRows, hop]
  | plain i hop hrow hi =>
    have hmem : ∀ op : Nibble, op ∉ [0x0#4, 0x8#4, 0xE#4, 0xF#4] → ⟨wordNNN op 0, 0xF000#16⟩ ∈ opcodeRows := by
      decide
    have hx : ∀ op : Nibble, xField (wordNNN op 0) = 0 := by decide
    have hnn : ∀ op : Nibble, nnField (wordNNN op 0) = 0 := by decide
    have hsel := (OpcodeRow.selects_maskF000 (hx _) (hnn _)).mpr (opField_wordNNN (opField w) 0).symm
    exact iff_of_true ⟨_, hmem _ hop, hsel⟩ (by simp [hrow])

/-- The patterns of two different rows differ within both masks, so no word selects both. -/
theorem eq_of_pattern_and_mask_eq :
    ∀ r₁ ∈ opcodeRows, ∀ r₂ ∈ opcodeRows,
      r₁.pattern &&& r₂.mask = r₂.pattern &&& r₁.mask → r₁ = r₂ := by decide

end Sys2Proof
end

section
/-! The statements of 30_encoding.md. -/

namespace Sys2Proof.Proofs

open Sys2Proof Sys2Proof.Machine

/-- Settles O2: the two bytes put together are the instruction's word, which decodes to it. -/
theorem decodeOfEncode : Obligations.DecodeOfEncode := by
  intro i rest
  show decode (hiByte (encode i) :: loByte (encode i) :: rest) = .ok (i, rest)
  rw [decode, wordOfBytes_hi_lo, decodeWord_encode]

/-- Settles O3, family by family of the word's high nibble. -/
theorem encodeOfDecode : Obligations.EncodeOfDecode :=
  fun _ _ h => encode_of_decodeRow (decodeWord_ok.mp h)

/-- Settles O4: the rows' tests, and that the patterns of two rows differ under both masks. -/
theorem recognizedIffOneRowSelects : Obligations.RecognizedIffOneRowSelects := by
  refine ⟨fun w => ?_, fun w r₁ h₁ r₂ h₂ hs₁ hs₂ => eq_of_pattern_and_mask_eq r₁ h₁ r₂ h₂ ?_⟩
  · simp only [exists_selects_iff, decodeWord_ok, Option.ne_none_iff_exists']
  · have e₁ : w &&& r₁.mask = r₁.pattern := beq_iff_eq.mp hs₁
    have e₂ : w &&& r₂.mask = r₂.pattern := beq_iff_eq.mp hs₂
    rw [← e₁, ← e₂, BitVec.and_assoc, BitVec.and_assoc, BitVec.and_comm r₁.mask]

/-- Settles O5: the fields of R118, read as quotients and remainders of the word. -/
theorem unrecognizedWordsAreTheFourClasses : Obligations.UnrecognizedWordsAreTheFourClasses := by
  intro w
  have hlt : w.toNat < 0x1000 ↔ w.toNat / 0x1000 = 0 := by omega
  simp only [decodeWord_error, and_true, decodeRow_eq_none, hlt, opField_eq_iff, nField_eq_iff, nnField_eq_iff,
    List.mem_cons, List.not_mem_nil, or_false, BitVec.toNat_ofNat]

/-- Settles O1: the words with numbers compute; a pattern with any operands is an instruction's word written out. -/
theorem specWordsDecode : Obligations.SpecWordsDecode :=
  ⟨rfl, rfl, rfl, rfl, rfl, rfl, rfl, rfl, rfl, rfl, rfl,
    fun x nn => ⟨decodeWord_encode (.seImm x nn), decodeWord_encode (.sneImm x nn), decodeWord_encode (.ldImm x nn),
      decodeWord_encode (.addImm x nn)⟩,
    fun x y => ⟨decodeWord_encode (.ldReg x y), decodeWord_encode (.orReg x y), decodeWord_encode (.andReg x y),
      decodeWord_encode (.xorReg x y)⟩⟩

end Sys2Proof.Proofs
end

section
/-! SUPPORT. What the cycle of an unrecognized word leaves (spec/40_cycle.md R144). -/

namespace Sys2Proof.Machine

variable (s : State)

/-- After the advance, `ipc` is the address the word was fetched from (R141, log 7). -/
@[simp] theorem State.ipc_advance : s.advance.ipc = s.PC := BitVec.add_sub_cancel s.PC 2

/-- The no-op of an unrecognized word, once PC was advanced: one record of the word and its own address, and nothing
else (R144). -/
theorem unrecognizedNoOp_advance (w : Word) :
    unrecognizedNoOp w s.advance =
      { s with PC := s.PC + 2, diag := s.diag ++ [⟨.unrecognizedOpcode, s.PC, w⟩] } := by
  rw [unrecognizedNoOp, State.ipc_advance, State.raise_eq]
  rfl

end Sys2Proof.Machine
end

section
/-! The statements of 40_cycle.md. -/

namespace Sys2Proof.Proofs

open Sys2Proof Sys2Proof.Machine

/-- Settles O6: the step is a cycle, and the word it fetches decodes to the instruction. -/
theorem stepRunsDecodedInstruction : Obligations.StepRunsDecodedInstruction := by
  intro s t hi lo i h hl hhi hlo hd
  rw [step_cycle h hl]
  exact cycle_of_decode (State.fetch_of_read? hhi hlo) hd

/-- Settles O7: the step is the cycle of a word without an instruction, whose no-op leaves one record. -/
theorem unrecognizedWordIsNoOp : Obligations.UnrecognizedWordIsNoOp := by
  refine ⟨by decide, rfl, rfl, fun s t hi lo h hl hhi hlo hd => ?_⟩
  rw [step_cycle h hl, cycle_of_unrecognized (State.fetch_of_read? hhi hlo) hd, unrecognizedNoOp_advance]
  rfl

end Sys2Proof.Proofs
end

section
/-! SUPPORT. Jumps, skips, calls and returns: a write of PC changes PC alone, and what a call and a return answer on either side of the stack's bounds (spec/41_control.md). -/

namespace Sys2Proof.Machine

variable (s : State)

/-! ### Jumps and skips -/

theorem pcBecomes_setPC (target : Word) : PcBecomes s (s.setPC target) target := ⟨rfl, fun _ => rfl⟩

/-- A skip under a test that says whether `P` holds (R160). -/
theorem pcBecomes_skipIf {c : Bool} {P : Prop} [Decidable P] (h : c = true ↔ P) :
    PcBecomes s (s.skipIf c) (if P then s.PC + 2 else s.PC) := by
  simp only [s.skipIf_eq, h]
  exact pcBecomes_setPC s _

/-- A skip where two bytes are equal (R164, R166). -/
theorem pcBecomes_skipIf_beq (a b : Byte) :
    PcBecomes s (s.skipIf (a == b)) (if a = b then s.PC + 2 else s.PC) :=
  pcBecomes_skipIf s beq_iff_eq

/-- A skip where two bytes differ (R165, R167). -/
theorem pcBecomes_skipIf_bne (a b : Byte) :
    PcBecomes s (s.skipIf (a != b)) (if a = b then s.PC else s.PC + 2) := by
  have h := pcBecomes_skipIf s (bne_iff_ne (a := a) (b := b))
  rwa [ite_not] at h

/-! ### Calls and returns -/

theorem exec_call_of_lt (nnn : Addr) (h : s.SP.val < 16) :
    exec (.call nnn) s = .next
      { s with stack := s.stack.set s.SP.val s.PC h, SP := ⟨s.SP.val + 1, by omega⟩, PC := zext16 nnn } := by
  rw [exec, execCall, s.push?_of_lt s.PC h]
  rfl

theorem exec_call_full (nnn : Addr) (h : s.SP.val = 16) :
    exec (.call nnn) s = .next (s.raiseAt .stackOverflow (.call nnn)) := by
  rw [exec, execCall, s.push?_full s.PC h]

theorem exec_ret_of_pos (h : 0 < s.SP.val) :
    exec .ret s = .next
      { s with SP := ⟨s.SP.val - 1, by omega⟩, PC := s.stack[s.SP.val - 1]'(by omega) } := by
  rw [exec, execRet, s.pop?_of_pos h]
  rfl

theorem exec_ret_empty (h : s.SP.val = 0) : exec .ret s = .next (s.raiseAt .stackUnderflow .ret) := by
  rw [exec, execRet, s.pop?_empty h]

end Sys2Proof.Machine
end

section
/-! The statements of 41_control.md. -/

namespace Sys2Proof.Proofs

open Sys2Proof Sys2Proof.Machine

/-- Settles O18: the jump is a write of PC, and its word is the instruction's. -/
theorem jumpSetsPc : Obligations.JumpSetsPc := fun nnn s =>
  ⟨decodeWord_encode (.jp nnn), _, rfl, BitVec.ofNat_toNat 16 nnn ▸ pcBecomes_setPC s (zext16 nnn)⟩

/-- Settles O19: the jump is a write of PC, and the sum of 12 and 8 bits fits in 16. -/
theorem jumpIndexedAddsV0 : Obligations.JumpIndexedAddsV0 := fun nnn s =>
  ⟨_, rfl, pcBecomes_setPC s _, indexedTarget_toNat nnn (s.getV 0)⟩

/-- Settles O20: both are skips under a comparison of two bytes. -/
theorem immediateSkips : Obligations.ImmediateSkips := fun x nn s =>
  ⟨⟨_, rfl, pcBecomes_skipIf_beq s (s.getV x) nn⟩, ⟨_, rfl, pcBecomes_skipIf_bne s (s.getV x) nn⟩⟩

/-- Settles O21: both are skips under a comparison of two bytes, in which N does not occur. -/
theorem registerSkipsIgnoreN : Obligations.RegisterSkipsIgnoreN := fun x y _ s =>
  ⟨⟨_, rfl, pcBecomes_skipIf_beq s (s.getV x) (s.getV y)⟩, ⟨_, rfl, pcBecomes_skipIf_bne s (s.getV x) (s.getV y)⟩⟩

/-- Settles O22: below the capacity the push writes the one entry at SP. -/
theorem callPushesAndJumps : Obligations.CallPushesAndJumps := fun nnn s h =>
  ⟨_, exec_call_of_lt s nnn h, rfl, zext16_toNat nnn, Vector.getElem_set_self h,
    fun j hj => Vector.getElem_set_ne h j.isLt hj.symm, rfl, fun _ => rfl⟩

/-- Settles O23: the push fails, and the cause it raises pauses the machine. -/
theorem callOnFullStackPauses : Obligations.CallOnFullStackPauses := by
  refine ⟨rfl, fun nnn s h => ?_⟩
  rw [exec_call_full s nnn h, State.raiseAt_eq]
  rfl

/-- Settles O24: a pop of a stack that holds something moves SP and PC alone. -/
theorem returnPopsIntoPc : Obligations.ReturnPopsIntoPc := fun s h =>
  ⟨_, exec_ret_of_pos s h, rfl, rfl, rfl, fun _ => rfl⟩

/-- Settles O25: the pop fails, and the cause it raises pauses the machine. -/
theorem returnOnEmptyStackPauses : Obligations.ReturnOnEmptyStackPauses := by
  refine ⟨rfl, fun s h => ?_⟩
  rw [exec_ret_empty s h, State.raiseAt_eq]
  rfl

/-- Settles O26: the return pops the entry that the call pushed, and neither writes an entry below it. -/
theorem returnUndoesCall : Obligations.ReturnUndoesCall := by
  intro nnn s h
  obtain ⟨t, ht, hcallSP, -, hpushed, hkept, -⟩ := callPushesAndJumps nnn s h
  obtain ⟨u, hu, hretSP, hretPC, hrest, -⟩ := returnPopsIntoPc t (by omega)
  have hstack : u.stack = t.stack := by rw [hrest]
  refine ⟨t, u, ht, hu, ?_, Fin.ext (by omega), fun j hj => ?_⟩
  · simpa only [hcallSP, Nat.add_sub_cancel, hpushed] using hretPC
  · rw [hstack, hkept j (by omega)]

end Sys2Proof.Proofs
end

section
/-! SUPPORT. Writes of one register, alone and after the flag, as a frame; and the model's flags and byte operations as arithmetic on numbers (spec/42_arith.md). -/

namespace Sys2Proof.Machine

/-! ### Writes of a register -/

section Writes

variable (s : State) (x : Nibble)

theorem regsBecome_setV (v : Byte) : RegsBecome s (s.setV x v) fun r => if r = x then v else s.getV r :=
  ⟨fun r => s.getV_setV x r v, rfl, fun _ => rfl⟩

/-- The same, with the value read back from the answer. -/
theorem regsBecome_setV_readBack (v : Byte) :
    RegsBecome s (s.setV x v) fun r => if r = x then (s.setV x v).getV x else s.getV r := by
  simpa only [s.getV_setV_same] using regsBecome_setV s x v

/-- The flag-then-result write, with the result and the flag's byte as a rule spells them (R190). -/
theorem regsBecome_setFlagThenV {flag : Bool} {v result flagValue : Byte} (hv : v = result)
    (hf : flagByte flag = flagValue) :
    RegsBecome s (s.setFlagThenV flag x v) fun r =>
      if r = x then result else if r = vf then flagValue else s.getV r := by
  subst hv hf
  exact ⟨fun r => s.getV_setFlagThenV flag x r v, s.setFlagThenV_rest flag x v, fun _ => rfl⟩

end Writes

/-! ### Flags and results as numbers -/

variable (a b : Byte)

theorem flagByte_carryFlag : flagByte (carryFlag a b) = if a.toNat + b.toNat > 255 then 1 else 0 := by
  simp only [flagByte, carryFlag, decide_eq_true_eq]

theorem flagByte_noBorrowFlag : flagByte (noBorrowFlag a b) = if a.toNat ≥ b.toNat then 1 else 0 := by
  simp only [flagByte, noBorrowFlag, decide_eq_true_eq]

/-- The flag of a bit of a byte is that binary digit. -/
theorem flagByte_getLsbD (k : Nat) : flagByte (a.getLsbD k) = BitVec.ofNat 8 (a.toNat / 2 ^ k % 2) := by
  rw [BitVec.getLsbD, Nat.testBit_eq_decide_div_mod_eq]
  obtain h | h := Nat.mod_two_eq_zero_or_one (a.toNat / 2 ^ k) <;> rw [h] <;> rfl

theorem flagByte_shiftedOutRight : flagByte (shiftedOutRight a) = BitVec.ofNat 8 (a.toNat % 2) := by
  rw [shiftedOutRight, flagByte_getLsbD, pow_zero, Nat.div_one]

theorem flagByte_shiftedOutLeft : flagByte (shiftedOutLeft a) = BitVec.ofNat 8 (a.toNat / 128) := by
  have hbit : a.toNat / 2 ^ 7 % 2 = a.toNat / 128 := by omega
  rw [shiftedOutLeft, flagByte_getLsbD, hbit]

theorem add_eq_ofNat_mod : a + b = BitVec.ofNat 8 ((a.toNat + b.toNat) % 256) :=
  BitVec.eq_of_toNat_eq (by simp)

theorem sub_eq_ofNat_mod : a - b = BitVec.ofNat 8 ((256 + a.toNat - b.toNat) % 256) := by
  bv_omega

theorem shiftRight_one_eq_ofNat : a >>> 1 = BitVec.ofNat 8 (a.toNat / 2) := by
  bv_omega

theorem shiftLeft_one_eq_ofNat_mod : a <<< 1 = BitVec.ofNat 8 (a.toNat * 2 % 256) := by
  bv_omega

end Sys2Proof.Machine
end

section
/-! The statements of 42_arith.md. -/

namespace Sys2Proof.Proofs

open Sys2Proof Sys2Proof.Machine

/-- Settles O11: the load is a write of one register. -/
theorem loadImmediateWritesRegister : Obligations.LoadImmediateWritesRegister := fun x nn s =>
  ⟨_, rfl, regsBecome_setV s x nn⟩

/-- Settles O12: the sum is written to one register, and a sum of bytes is the sum mod 256. -/
theorem addImmediateWrapsWithoutFlag : Obligations.AddImmediateWrapsWithoutFlag := fun x nn s =>
  ⟨_, rfl, add_eq_ofNat_mod (s.getV x) nn ▸ regsBecome_setV s x _⟩

/-- Settles O13: each is a write of one register, and the value read back has the operation's bits. -/
theorem copyAndLogicWriteDestinationOnly : Obligations.CopyAndLogicWriteDestinationOnly := by
  refine fun x y s => ⟨⟨_, rfl, regsBecome_setV s x _⟩, ⟨_, rfl, regsBecome_setV_readBack s x _, fun k => ?_⟩,
    ⟨_, rfl, regsBecome_setV_readBack s x _, fun k => ?_⟩, ⟨_, rfl, regsBecome_setV_readBack s x _, fun k => ?_⟩⟩
  · rw [s.getV_setV_same, BitVec.getLsbD_or]
  · rw [s.getV_setV_same, BitVec.getLsbD_and]
  · rw [s.getV_setV_same, BitVec.getLsbD_xor]

/-- Settles O14: a flag-then-result write of the carry and the sum. -/
theorem addRegistersSetsCarry : Obligations.AddRegistersSetsCarry := fun x _ s =>
  ⟨_, rfl, regsBecome_setFlagThenV s x (add_eq_ofNat_mod _ _) (flagByte_carryFlag _ _)⟩

/-- Settles O15: two flag-then-result writes of the no-borrow flag and the difference, the operands exchanged. -/
theorem subtractionsSetNoBorrow : Obligations.SubtractionsSetNoBorrow := fun x _ s =>
  ⟨⟨_, rfl, regsBecome_setFlagThenV s x (sub_eq_ofNat_mod _ _) (flagByte_noBorrowFlag _ _)⟩,
   ⟨_, rfl, regsBecome_setFlagThenV s x (sub_eq_ofNat_mod _ _) (flagByte_noBorrowFlag _ _)⟩⟩

/-- Settles O16: two flag-then-result writes, of the lowest bit and the half, of the highest bit and the double. -/
theorem shiftsSetTheBitShiftedOut : Obligations.ShiftsSetTheBitShiftedOut := fun x _ s =>
  ⟨⟨_, rfl, regsBecome_setFlagThenV s x (shiftRight_one_eq_ofNat _) (flagByte_shiftedOutRight _)⟩,
   ⟨_, rfl, regsBecome_setFlagThenV s x (shiftLeft_one_eq_ofNat_mod _) (flagByte_shiftedOutLeft _)⟩⟩

/-- Settles O17: one draw, from the input or from the free stream, and then a write of one register. -/
theorem randomMasksOneDraw : Obligations.RandomMasksOneDraw := by
  refine fun x nn s => ⟨_, rfl, fun b rest h => ?_, fun h => ⟨Config.freeRand s.draws, ?_⟩⟩
  · rw [s.draw_cons h]
    exact regsBecome_setV _ x _
  · rw [s.draw_nil h]
    exact regsBecome_setV _ x _

end Sys2Proof.Proofs
end

section
/-! SUPPORT. The draw of DXYN as one operation: the pixels it covers are those of its rows, its canvas pixel by pixel, its flag, and the warning of a data instruction (spec/43_display.md R221 to R224). -/

namespace Sys2Proof.Machine

variable (s : State) (x y n : Nibble)

/-- The buffer that DXYN leaves, and whether it saw a collision. -/
def State.spriteCanvas : Canvas :=
  drawRows ((s.getV x).toNat % 64) ((s.getV y).toNat % 32) 0 (s.mem.readRun s.I.toNat n.toNat) (s.disp, false)

theorem exec_drw :
    exec (.drw x y n) s = .next (((s.setDisp (s.spriteCanvas x y n).1).setFlag (s.spriteCanvas x y n).2).warnIf
      (runOutOfBounds s.I.toNat n.toNat) (.drw x y n)) := rfl

/-- A sprite has at most 15 rows, so that no row is drawn twice (R223). -/
theorem length_spriteRows_le : 0 + (s.mem.readRun s.I.toNat n.toNat).length ≤ 32 := by
  have hlen := s.mem.readRun_length_le s.I.toNat n.toNat
  have hn := n.isLt
  omega

variable {s x y n} {t : State} {px : Fin 64} {py : Fin 32}

/-- The early stop of the rows at the end of memory leaves out just the rows whose byte is out of range (R221). -/
theorem spriteCovers_iff_rowsCover :
    SpriteCovers s x y n px py ↔
      RowsCover ((s.getV x).toNat % 64) ((s.getV y).toNat % 32) 0 (s.mem.readRun s.I.toNat n.toNat) px py := by
  simp only [RowsCover, RowCovers, Memory.readRun_getElem?, Option.ite_none_right_eq_some, Nat.zero_add]
  constructor
  · rintro ⟨r, b, row, hr, hb, hrow, hbit, hpx, hpy⟩
    exact ⟨r, row, ⟨hr, hrow⟩, Fin.ext hpy, b, Nat.zero_le b, hb, hbit, Fin.ext hpx⟩
  · rintro ⟨r, row, ⟨hr, hrow⟩, hpy, b, -, hb, hbit, hpx⟩
    exact ⟨r, b, row, hr, hb, hrow, hbit, congrArg Fin.val hpx, congrArg Fin.val hpy⟩

open Classical in
/-- A draw inverts exactly the pixels that its sprite covers (R221). -/
theorem pixel_spriteCanvas :
    (s.spriteCanvas x y n).1.pixel px py = (s.disp.pixel px py ^^ decide (SpriteCovers s x y n px py)) := by
  rw [State.spriteCanvas, drawRows_pixel _ _ _ _ (length_spriteRows_le s n), spriteCovers_iff_rowsCover]

/-- The collision flag of a draw (R222). -/
theorem spriteCanvas_hit_iff :
    (s.spriteCanvas x y n).2 = true ↔ ∃ px py, SpriteCovers s x y n px py ∧ s.disp.pixel px py = true := by
  simp only [State.spriteCanvas, drawRows_hit _ _ _ _ (length_spriteRows_le s n), Bool.false_eq_true, false_or,
    spriteCovers_iff_rowsCover]

/-- What a sprite covers is read off memory, `I`, N and the two origin registers. -/
theorem spriteCovers_congr (hmem : SameMemory s t) (hI : t.I = s.I) (hx : t.getV x = s.getV x)
    (hy : t.getV y = s.getV y) : SpriteCovers t x y n px py ↔ SpriteCovers s x y n px py := by
  simp only [SpriteCovers, hmem _, hI, hx, hy]

end Sys2Proof.Machine
end

section
/-! The statements of 43_display.md. -/

namespace Sys2Proof.Proofs

open Sys2Proof Sys2Proof.Machine

/-- Settles O27: no word but its own decodes to clear-screen, which is a write of the blank buffer. -/
theorem clearScreenBlanksEveryPixel : Obligations.ClearScreenBlanksEveryPixel := by
  refine ⟨fun w => ⟨fun h => (encodeOfDecode w .cls h).symm, ?_⟩,
    fun s => ⟨_, rfl, Display.pixel_blank, rfl, fun _ => rfl⟩⟩
  rintro rfl
  exact decodeWord_encode .cls

/-- Settles O28: pixel by pixel from the canvas of the draw; the flag is the canvas's, and the record that of a data
instruction whose rows run out of memory. -/
theorem drawSpriteIsXorWithCollision : Obligations.DrawSpriteIsXorWithCollision := by
  intro x y n s
  refine ⟨_, exec_drw s x y n, ?_⟩
  rw [State.warnIf_eq]
  refine ⟨fun px py h => pixel_spriteCanvas.trans ?_, fun px py h => pixel_spriteCanvas.trans ?_,
    fun h => (State.getV_setFlag _ _ vf).trans ?_, fun h => (State.getV_setFlag _ _ vf).trans ?_,
    fun r hr => (State.getV_setFlag _ _ r).trans (if_neg hr), if_congr (Memory.runOutOfBounds_iff _ _) rfl rfl,
    rfl, fun _ => rfl⟩
  · simp only [h, decide_false, Bool.xor_false]
  · simp only [h, decide_true, Bool.xor_true]
  · rw [spriteCanvas_hit_iff.mpr h]
    rfl
  · rw [Bool.eq_false_iff.mpr (mt spriteCanvas_hit_iff.mp h)]
    rfl

/-- Settles O29: the first draw moves neither the origin nor the rows, so that the second inverts the same pixels back,
and a covered pixel is set for it iff it was clear before the first. -/
theorem drawTwiceRestoresBuffer : Obligations.DrawTwiceRestoresBuffer := by
  intro x y n s hx hy
  obtain ⟨t, ht, hkept, hinverted, -, -, hregs, -, hrest, hmem⟩ := drawSpriteIsXorWithCollision x y n s
  obtain ⟨u, hu, hkept', hinverted', hflag1, hflag0, -⟩ := drawSpriteIsXorWithCollision x y n t
  have hI : t.I = s.I := by rw [hrest]
  have hcovers (px py) : SpriteCovers t x y n px py ↔ SpriteCovers s x y n px py :=
    spriteCovers_congr hmem hI (hregs x hx) (hregs y hy)
  have hset (px py) : SpriteCovers t x y n px py ∧ t.disp.pixel px py = true ↔
      SpriteCovers s x y n px py ∧ s.disp.pixel px py = false := by
    rw [hcovers]
    exact and_congr_right fun hc => by rw [hinverted px py hc, Bool.not_eq_true']
  simp only [hset] at hflag1 hflag0
  refine ⟨t, u, ht, hu, Display.ext_pixel fun px py => ?_, hflag1, hflag0⟩
  by_cases hc : SpriteCovers s x y n px py
  · rw [hinverted' px py ((hcovers px py).mpr hc), hinverted px py hc, Bool.not_not]
  · rw [hkept' px py (mt (hcovers px py).mp hc), hkept px py hc]

end Sys2Proof.Proofs
end

section
/-! SUPPORT. The key that the low nibble of a register names, and what FX0A answers with a key down and with none (spec/44_keys_timers.md R240, R241, R245). -/

namespace Sys2Proof.Machine

/-! ### The key named by a register -/

theorem toNat_lowNibble (v : Byte) : (lowNibble v).toNat = v.toNat % 16 := by
  rw [lowNibble, BitVec.extractLsb'_toNat, Nat.shiftRight_zero]

/-- The low nibble of a byte names the key of its number mod 16. -/
theorem lowNibble_eq_ofNat {v : Byte} {k : Fin 16} (h : v.toNat % 16 = k.val) :
    lowNibble v = BitVec.ofNat 4 k.val := by
  rw [← h, ← toNat_lowNibble, BitVec.ofNat_toNat, BitVec.setWidth_eq]

/-- The snapshot at the key that the low nibble of a byte names (R240, R241). -/
theorem State.keyDown_lowNibble (s : State) {v : Byte} {k : Fin 16} (h : v.toNat % 16 = k.val) :
    s.keyDown (lowNibble v) = s.key[k.val] := by
  rw [lowNibble_eq_ofNat h, s.keyDown_ofNat k.val k.isLt]

/-! ### The wait for a key -/

variable {s : State} (x : Nibble)

theorem exec_ldVxK_of_lowest {k : Fin 16} (hk : s.key[k.val] = true)
    (hlow : ∀ j : Fin 16, j < k → s.key[j.val] = false) :
    exec (.ldVxK x) s = .next (s.setV x (BitVec.ofNat 8 k.val)) := by
  have hscan : s.lowestKey = some (BitVec.ofNat 4 k.val) := s.scanKeys_eq_some k hk hlow 16 le_rfl (Nat.zero_le _)
  have hwiden : (BitVec.ofNat 4 k.val).setWidth 8 = BitVec.ofNat 8 k.val :=
    BitVec.setWidth_ofNat_of_le_of_lt (by decide) k.isLt
  rw [exec, execLdVxK, hscan, ← hwiden]

theorem exec_ldVxK_of_none (hup : ∀ k : Fin 16, s.key[k.val] = false) :
    exec (.ldVxK x) s = .next (s.setPC (s.PC - 2)) := by
  have hscan : s.lowestKey = none := s.scanKeys_eq_none hup 16
  rw [exec, execLdVxK, hscan]

end Sys2Proof.Machine
end

section
/-! The statements of 44_keys_timers.md. -/

namespace Sys2Proof.Proofs

open Sys2Proof Sys2Proof.Machine

/-- Settles O30: both are skips under a test of the snapshot at the key that the low nibble names. -/
theorem keySkipsReadSnapshot : Obligations.KeySkipsReadSnapshot := by
  intro x s k h
  have hdown := s.keyDown_lowNibble h
  refine ⟨⟨decodeWord_encode (.skp x), _, rfl, pcBecomes_skipIf s (by rw [hdown])⟩,
    ⟨decodeWord_encode (.sknp x), _, rfl, ?_⟩⟩
  have hup : (!s.keyDown (lowNibble (s.getV x))) = true ↔ ¬ s.key[k.val] = true := by
    rw [hdown, Bool.not_eq_true', Bool.not_eq_true]
  have hskip := pcBecomes_skipIf s hup
  rwa [ite_not] at hskip

/-- Settles O31: a write of one register where the scan finds a key, a write of PC where it finds none. -/
theorem waitForKeyTakesLowestOrRollsBack : Obligations.WaitForKeyTakesLowestOrRollsBack := fun x s =>
  ⟨decodeWord_encode (.ldVxK x),
    fun _ hk hlow => ⟨_, exec_ldVxK_of_lowest x hk hlow, regsBecome_setV s x _⟩,
    fun hup => ⟨_, exec_ldVxK_of_none x hup, pcBecomes_setPC s _⟩⟩

/-- Settles O32: a write of one register, of DT and of ST, and each word is its instruction's. -/
theorem timerTransfersCopy : Obligations.TimerTransfersCopy := fun x s =>
  ⟨⟨decodeWord_encode (.ldVxDt x), _, rfl, regsBecome_setV s x s.DT⟩,
   ⟨decodeWord_encode (.ldDtVx x), _, rfl, rfl, fun _ => rfl⟩,
   ⟨decodeWord_encode (.ldStVx x), _, rfl, rfl, fun _ => rfl⟩⟩

end Sys2Proof.Proofs
end

section
/-! SUPPORT. The index register as a number, a run of stores address by address, and what the block transfers FX55 and FX65 share (spec/45_index_memory.md R260 to R265). -/

namespace Sys2Proof.Machine

/-! ### The index register as a number -/

/-- The font's 16 glyphs of 5 bytes start within 16 bits (R262). -/
theorem glyphAddr_toNat (digit : Nibble) : (glyphAddr digit).toNat = digit.toNat * 5 := by
  have := digit.isLt
  rw [glyphAddr, BitVec.toNat_ofNat, Nat.mod_eq_of_lt (by omega)]

theorem addWord_eq_ofNat_mod (i w : Word) : i + w = BitVec.ofNat 16 ((i.toNat + w.toNat) % 65536) :=
  BitVec.eq_of_toNat_eq (by simp)

theorem flagByte_indexOverflowFlag (i : Word) (v : Byte) :
    flagByte (indexOverflowFlag i v) = if i.toNat + v.toNat > 0x0FFF then 1 else 0 := by
  simp only [flagByte, indexOverflowFlag, decide_eq_true_eq]

/-- The sum of FX1E (R261). -/
theorem add_setWidth_eq_ofNat_mod (i : Word) (v : Byte) :
    i + v.setWidth 16 = BitVec.ofNat 16 ((i.toNat + v.toNat) % 65536) := by
  rw [addWord_eq_ofNat_mod, BitVec.toNat_setWidth_of_le (by decide)]

/-- The quirk's advance of `I` by X + 1 (D24). -/
theorem add_ofNat_succ_eq_ofNat_mod (i : Word) (x : Nibble) :
    i + BitVec.ofNat 16 (x.toNat + 1) = BitVec.ofNat 16 ((i.toNat + x.toNat + 1) % 65536) := by
  have hx : (BitVec.ofNat 16 (x.toNat + 1)).toNat = x.toNat + 1 :=
    (BitVec.toNat_ofNat _ 16).trans (Nat.mod_eq_of_lt (by omega))
  rw [addWord_eq_ofNat_mod, hx, Nat.add_assoc]

/-! ### Runs of stores, address by address -/

namespace Memory

variable {m : Memory} {a b k : Nat} {v : Byte} {vs : List Byte}

/-- A run's byte stands at its address, where that is in range. -/
theorem read?_writeRun_covered (hm : m.wf) (hv : vs[k]? = some v) (hk : a + k < 4096) :
    (m.writeRun a vs).read? (a + k) = some v := by
  obtain ⟨hlen, hv⟩ := List.getElem?_eq_some_iff.mp hv
  rw [read?_writeRun hm.1, dif_pos ⟨by omega, by omega, hk⟩]
  simp only [Nat.add_sub_cancel_left, hv]

/-- An address outside a run reads as before. -/
theorem read?_writeRun_outside (hm : m.wf) (hb : b < a ∨ a + vs.length ≤ b) :
    (m.writeRun a vs).read? b = m.read? b := by
  rw [read?_writeRun hm.1, dif_neg (by omega)]

end Memory

/-- A transfer of the bytes at `I`, …, `I + n` warns iff its last address is out of range (D20). -/
theorem runOutOfBounds_succ_iff (i : Word) (n : Nat) :
    runOutOfBounds (effAddr i 0) (n + 1) = true ↔ 4096 ≤ i.toNat + n := by
  rw [Memory.runOutOfBounds_iff, effAddr]
  omega

/-! ### What the block transfers do -/

variable (s : State) (x : Nibble)

theorem State.getElem?_regsTo {r : Nibble} (h : r.toNat ≤ x.toNat) : (s.regsTo x)[r.toNat]? = some (s.getV r) := by
  have hlen : r.toNat < (s.regsTo x).length := by rw [s.length_regsTo]; omega
  rw [List.getElem?_eq_getElem hlen, s.getElem_regsTo]

/-- The last two acts of FX55 and FX65: the warning, and the quirk's advance of `I`. -/
theorem State.warnIf_bumpIndex_eq (i : Instr) :
    (s.warnIf (runOutOfBounds (effAddr s.I 0) (x.toNat + 1)) i).bumpIndex x =
      { s with
        I := if s.cfg.quirkLsInc = true then BitVec.ofNat 16 ((s.I.toNat + x.toNat + 1) % 65536) else s.I
        diag := if 4096 ≤ s.I.toNat + x.toNat then s.diag ++ [⟨.outOfBounds, s.PC - 2, encode i⟩] else s.diag } := by
  simp only [State.bumpIndex_eq, State.warnIf_eq, runOutOfBounds_succ_iff, add_ofNat_succ_eq_ofNat_mod, State.ipc]

/-- Register `r` after the loads of FX65: the byte at `I + r` where there is one and `r` is at most X, else what it
held. -/
theorem State.getElem_loadRegs_toNat (r : Nibble) :
    (loadRegs s.mem s.I s.V (x.toNat + 1))[r.toNat]'r.isLt =
      if r.toNat ≤ x.toNat then (s.mem.read? (s.I.toNat + r.toNat)).getD (s.getV r) else s.getV r := by
  have hx := x.isLt
  simp only [getElem_loadRegs s.mem s.I s.V (x.toNat + 1) hx r.toNat r.isLt, Nat.lt_succ_iff]
  rfl

end Sys2Proof.Machine
end

section
/-! The statements of 45_index_memory.md. -/

namespace Sys2Proof.Proofs

open Sys2Proof Sys2Proof.Machine

/-- Settles O33: the instruction is a write of `I`, and the address keeps its value when widened. -/
theorem setIndexLoadsAddress : Obligations.SetIndexLoadsAddress := fun nnn _ =>
  ⟨_, rfl, zext16_toNat nnn, rfl, fun _ => rfl⟩

/-- Settles O34: a write of `I` alone with the quirk off, after a write of the flag with the quirk on. -/
theorem addToIndexUnderBothQuirks : Obligations.AddToIndexUnderBothQuirks := by
  intro x s
  have hsum := add_setWidth_eq_ofNat_mod s.I (s.getV x)
  rw [exec, execAddI]
  cases hq : s.cfg.quirkFx1eFlag with
  | false => exact ⟨s.setI _, rfl, hsum, fun _ => rfl, nofun, fun _ => rfl⟩
  | true =>
    refine ⟨(s.setFlag _).setI _, rfl, hsum, nofun, fun _ => ⟨rfl, fun r => ?_⟩, fun _ => rfl⟩
    rw [State.getV_setI, State.getV_setFlag, flagByte_indexOverflowFlag]

/-- Settles O35: the instruction is a write of `I`, and a digit's glyph starts at five times the digit. -/
theorem fontPointerIsDigitTimesFive : Obligations.FontPointerIsDigitTimesFive := by
  intro x s
  have hdigit : (glyphAddr (lowNibble (s.getV x))).toNat = (s.getV x).toNat % 16 * 5 := by
    rw [glyphAddr_toNat, toNat_lowNibble]
  exact ⟨decodeWord_encode (.ldF x), s.setI _, rfl, hdigit, by rw [State.setI_I]; omega, rfl, fun _ => rfl⟩

/-- Settles O36: a run of three stores, each digit at its address. -/
theorem storeBcdWritesThreeDigits : Obligations.StoreBcdWritesThreeDigits := by
  intro x s hm
  refine ⟨_, congrArg Host.Outcome.next (State.warnIf_eq _ _ (.ldB x)), ?_, ?_, ?_,
    fun a ha => Memory.read?_writeRun_outside hm ha, if_congr (runOutOfBounds_succ_iff s.I 2) rfl rfl, rfl⟩ <;>
    rintro a ha rfl
  · exact Memory.read?_writeRun_covered (k := 0) hm rfl ha
  · exact Memory.read?_writeRun_covered (k := 1) hm rfl ha
  · exact Memory.read?_writeRun_covered (k := 2) hm rfl ha

/-- Settles O37: a run of X + 1 stores, each register at its address. -/
theorem registerDumpStoresAscending : Obligations.RegisterDumpStoresAscending := by
  intro x s hm
  refine ⟨_, congrArg Host.Outcome.next (State.warnIf_bumpIndex_eq (s.setMem _) x (.dump x)),
    fun r hr hin => ?_, fun a ha => ?_, rfl, rfl, rfl⟩
  · exact Memory.read?_writeRun_covered hm (s.getElem?_regsTo x hr) hin
  · exact Memory.read?_writeRun_outside hm (by rwa [s.length_regsTo])

/-- Settles O38: register by register from the loads, whose byte is missing just where the address is out of range. -/
theorem registerLoadReadsAscending : Obligations.RegisterLoadReadsAscending := by
  intro x s
  refine ⟨_, congrArg Host.Outcome.next (State.warnIf_bumpIndex_eq (s.setRegs _) x (.load x)),
    fun r b hr hb => ?_, fun r hr => ?_, rfl, rfl, rfl, fun _ => rfl⟩ <;>
    refine (s.getElem_loadRegs_toNat x r).trans ?_
  · rw [if_pos hr, hb, Option.getD_some]
  · rcases hr with habove | hout
    · rw [if_neg (by omega)]
    · rw [Memory.read?_of_ge s.mem hout, Option.getD_none, ite_self]

/-- Settles O39: with `I` unmoved the load reads each address that the dump stored. -/
theorem dumpThenLoadRestoresRegisters : Obligations.DumpThenLoadRestoresRegisters := by
  intro x s v hm hq hin
  obtain ⟨t, ht, hstored, -, hI, -⟩ := registerDumpStoresAscending x s hm
  obtain ⟨u, hu, hloaded, -⟩ := registerLoadReadsAscending x { t with V := v }
  have hI : t.I = s.I := by rw [hI, hq, if_neg Bool.false_ne_true]
  refine ⟨t, u, ht, hu, fun r hr => hloaded r _ hr ?_⟩
  show t.mem.read? (t.I.toNat + r.toNat) = some (s.getV r)
  rw [hI]
  exact hstored r hr (by omega)

end Sys2Proof.Proofs
end

section
/-! SUPPORT. Which event is next, what answers a fault, what leaves Running, and what a tick does to a run (spec/60_exceptions.md, spec/70_reset_and_hazards.md R370). -/

namespace Sys2Proof.Machine

variable {s t : State}

/-! ### The Scheduler's choice -/

/-- With nothing due, strategy (a) runs a cycle (R370). -/
theorem nextEvent_strategyA (hp : s.pending = []) (hs : s.cfg.sched = .a) : s.nextEvent = (.cycle, s) := by
  simp only [State.nextEvent, hp, hs]

/-- With nothing due, strategy (b) in Running runs its batch of cycles and then one tick (R371). -/
theorem nextEvent_strategyB (hp : s.pending = []) (hs : s.cfg.sched = .b) (hl : s.lifecycle = .running) :
    s.nextEvent =
      if s.batchPos < s.cfg.batch then (.cycle, s.setBatchPos (s.batchPos + 1)) else (.tick, s.setBatchPos 0) := by
  simp only [State.nextEvent, hp, hs, hl]

/-- The Scheduler of itself chooses only cycles and ticks: any other event is next just where it is the first due. -/
theorem nextEvent_eq_iff_due {e : Event} (hc : e ≠ .cycle) (ht : e ≠ .tick) :
    s.nextEvent.1 = e ↔ ∃ rest, s.pending = e :: rest := by
  cases hp : s.pending with
  | nil =>
    refine iff_of_false (fun h => ?_) nofun
    rcases (nextEvent_nil hp).1 with h' | h'
    · exact hc (h.symm.trans h')
    · exact ht (h.symm.trans h')
  | cons e' rest => simp [nextEvent_cons hp]

theorem nextEvent_PC (s : State) : s.nextEvent.2.PC = s.PC := by rw [nextEvent_rest]
theorem nextEvent_SP (s : State) : s.nextEvent.2.SP = s.SP := by rw [nextEvent_rest]
theorem nextEvent_DT (s : State) : s.nextEvent.2.DT = s.DT := by rw [nextEvent_rest]
theorem nextEvent_mem (s : State) : s.nextEvent.2.mem = s.mem := by rw [nextEvent_rest]
theorem nextEvent_lifecycle (s : State) : s.nextEvent.2.lifecycle = s.lifecycle := by rw [nextEvent_rest]

/-! ### Stops -/

/-- Every instruction goes on: the two with a stack and the one that waits on both of their branches. -/
theorem exec_goesOn (i : Instr) (s : State) : ∃ t, exec i s = .next t := by
  cases i with
  | ret =>
    by_cases h : 0 < s.SP.val
    · exact ⟨_, exec_ret_of_pos s h⟩
    · exact ⟨_, exec_ret_empty s (by omega)⟩
  | call nnn =>
    by_cases h : s.SP.val < 16
    · exact ⟨_, exec_call_of_lt s nnn h⟩
    · exact ⟨_, exec_call_full s nnn (by omega)⟩
  | ldVxK x =>
    rw [exec, execLdVxK]
    split <;> exact ⟨_, rfl⟩
  | _ => exact ⟨_, rfl⟩

theorem cycleEvent_goesOn (s : State) : ∃ t, cycleEvent s = .next t := by
  by_cases hl : s.lifecycle = .running
  · rw [cycleEvent_running hl]
    rcases cycle_cases s with ⟨-, hc⟩ | ⟨w, -, -, hc⟩ | ⟨w, i, -, -, hc⟩
    · exact ⟨_, hc⟩
    · exact ⟨_, hc⟩
    · rw [hc]; exact exec_goesOn i _
  · exact ⟨s, cycleEvent_idle hl⟩

/-- No event is refused (the arms without a meaning that `Refusal` provides for do not occur). -/
theorem happen_ne_refused (e : Event) (s : State) (r : Refusal) : happen e s ≠ .refused r := by
  cases e with
  | cycle =>
    obtain ⟨t, ht⟩ := cycleEvent_goesOn s
    exact fun h => by cases ht.symm.trans h
  | load rom =>
    show s.loadRom rom ≠ .refused r
    rw [loadRom_eq]
    split_ifs <;> nofun
  | _ => nofun

/-- A load fails just on a bad length, under that length's own name (R350, R351). -/
theorem loadRom_eq_fault_iff {rom : List Byte} {f : Fault} :
    s.loadRom rom = .fault f ↔
      (rom.length = 0 ∧ f = .emptyRom) ∨ (3584 < rom.length ∧ f = .romTooLarge) := by
  have hmax : rom.length > maxRom ↔ 3584 < rom.length := Iff.rfl
  rw [loadRom_eq]
  split_ifs with h₀ h₁
  · simp [h₀, eq_comm]
  · simp [h₀, hmax.mp h₁, eq_comm]
  · simp [h₀, mt hmax.mpr h₁]

theorem startupFault_eq_iff {why : StartupReport} {f : Fault} :
    startupFault why = f ↔
      (why = .romUnreadable ∧ f = .romUnreadable) ∨ (why = .initFailure ∧ f = .initFailure) := by
  cases why <;> simp [startupFault, eq_comm]

/-- The events that stop a run: a load that fails, or the collaborators' report (R307). -/
theorem happen_eq_fault_iff {e : Event} {f : Fault} :
    happen e s = .fault f ↔
      (∃ rom, e = .load rom ∧ s.loadRom rom = .fault f) ∨ ∃ why, e = .startupFailed why ∧ startupFault why = f := by
  cases e with
  | cycle =>
    obtain ⟨t, ht⟩ := cycleEvent_goesOn s
    simp [happen, ht]
  | _ => simp [happen]

/-! ### Ways out of Running -/

/-- The causes for which a cycle pauses (R306): no fetch, or a call or a return past the stack's bounds. -/
def State.CyclePauses (s : State) : Prop :=
  s.fetch = none ∨ ∃ w, s.fetch = some w ∧
    ((s.SP.val = 16 ∧ ∃ nnn, decodeWord w = .ok (.call nnn)) ∨ (s.SP.val = 0 ∧ decodeWord w = .ok .ret))

theorem State.fetch_eq_none_iff : s.fetch = none ↔ 4096 ≤ s.PC.toNat + 1 := by
  refine ⟨fun h => ?_, s.fetch_of_ge⟩
  by_contra hlt
  rw [s.fetch_of_lt (Nat.lt_of_not_le hlt)] at h
  cases h

/-- A word that was fetched is two bytes of memory, the high one first (R77, R78). -/
theorem State.read?_of_fetch {w : Word} (h : s.fetch = some w) :
    ∃ hi lo, s.mem.read? s.PC.toNat = some hi ∧ s.mem.read? (s.PC.toNat + 1) = some lo ∧ w = hi ++ lo := by
  have hlt := s.fetch_lt h
  rw [s.fetch_of_lt hlt] at h
  exact ⟨_, _, Memory.read?_of_lt _ (Nat.lt_of_succ_lt hlt), Memory.read?_of_lt _ hlt, (Option.some.inj h).symm⟩

/-- An instruction keeps the lifecycle state, or pauses on a call or a return past the stack's bounds. -/
theorem Effect.lifecycle {i : Instr} (h : Effect s i t) :
    t.lifecycle = s.lifecycle ∨
      (t.lifecycle = .paused ∧ ((s.SP.val = 16 ∧ ∃ nnn, i = .call nnn) ∨ (s.SP.val = 0 ∧ i = .ret))) := by
  cases h with
  | callFull nnn h16 => exact .inr ⟨rfl, .inl ⟨h16, nnn, rfl⟩⟩
  | retEmpty h0 => exact .inr ⟨rfl, .inr ⟨h0, rfl⟩⟩
  | _ => exact .inl (by simp [State.skipIf_eq, State.warnIf_eq, State.bumpIndex_eq])

/-- Everything that takes a running machine out of Running (R320). -/
theorem Happens.leaves_running {e : Event} (he : Happens s e t) (hs : s.lifecycle = .running)
    (ht : t.lifecycle ≠ .running) :
    (e = .quit ∧ t.lifecycle = .quit) ∨ (t.lifecycle = .paused ∧ (e = .pause ∨ (e = .cycle ∧ s.CyclePauses))) := by
  cases he with
  | idle h => exact absurd hs h
  | fetchFault _ hf => exact .inr ⟨rfl, .inr ⟨rfl, .inl hf⟩⟩
  | unrecognized => exact absurd hs ht
  | exec w i _ hf hd he =>
    rcases (exec_effect he).lifecycle with hl | ⟨hl, hcause⟩
    · exact absurd (hl.trans hs) ht
    · refine .inr ⟨hl, .inr ⟨rfl, .inr ⟨w, hf, hcause.imp ?_ ?_⟩⟩⟩
      · rintro ⟨h16, nnn, rfl⟩; exact ⟨h16, nnn, hd⟩
      · rintro ⟨h0, rfl⟩; exact ⟨h0, hd⟩
  | tick => rw [tick_running hs] at ht; exact absurd hs ht
  | pause => exact .inr ⟨by rw [pauseSignal_eq, if_pos hs]; rfl, .inl rfl⟩
  | resume => simp [State.resume_eq, hs] at ht
  | quit => exact .inl ⟨rfl, rfl⟩
  | keyWrite k down => rw [keyWrite_eq s k down (by simp [hs])] at ht; exact absurd hs ht
  | load rom => exact absurd rfl ht

/-! ### Ticks of a run -/

/-- A tick of a running machine takes 1 from the delay timer, down to 0, whatever arrives before it (R330). -/
theorem IsRun.DT_tick {σ : Nat → State} {arrivals : Nat → List Event} (hrun : IsRun σ arrivals) {m : Nat}
    (htick : eventAt σ arrivals m = .tick) (hl : (σ m).lifecycle = .running) :
    (σ (m + 1)).DT.toNat = (σ m).DT.toNat - 1 := by
  have hl : ((σ m).receive (arrivals m)).nextEvent.2.lifecycle = .running := (nextEvent_lifecycle _).trans hl
  have hstep := (hrun m).symm.trans (step_of_nextEvent (Prod.ext htick rfl))
  rw [Host.Outcome.next.inj hstep, tick_running hl]
  exact (countDown_toNat _).trans (by rw [nextEvent_DT]; rfl)

end Sys2Proof.Machine
end

section
/-! The statements of 60_exceptions.md. -/

namespace Sys2Proof.Proofs

open Sys2Proof Sys2Proof.Machine

/-- Settles O51: only a failing load and the collaborators' report answer a fault, and the Scheduler offers either only
where it is due. -/
theorem onlyStartupErrorsStop : Obligations.OnlyStartupErrorsStop := by
  refine ⟨rfl, rfl, fun s => ⟨happen_ne_refused _ _, fun f => happen_eq_fault_iff.trans ?_⟩⟩
  simp only [loadRom_eq_fault_iff, startupFault_eq_iff, exists_and_right,
    fun rom => nextEvent_eq_iff_due (s := s) (e := .load rom) nofun nofun,
    fun why => nextEvent_eq_iff_due (s := s) (e := .startupFailed why) nofun nofun]

/-- Settles O52: the event that happens leaves Running as R320 lists, and choosing it moves neither PC, SP nor
memory. -/
theorem onlyTheseLeaveRunning : Obligations.OnlyTheseLeaveRunning := by
  intro s t hs h ht
  have hleave := (step_next h).leaves_running ((nextEvent_lifecycle s).trans hs) ht
  refine hleave.imp_right <| And.imp_right <| Or.imp_right <| And.imp_right <| Or.imp (fun hf => ?_) ?_
  · rwa [State.fetch_eq_none_iff, nextEvent_PC] at hf
  · rintro ⟨w, hf, hcause⟩
    obtain ⟨hi, lo, hhi, hlo, rfl⟩ := State.read?_of_fetch hf
    rw [nextEvent_mem, nextEvent_PC] at hhi hlo
    rw [nextEvent_SP] at hcause
    exact ⟨hi, lo, hhi, hlo, hcause⟩

/-- Settles O58, from the cases of an instruction's effect on the diagnostics. -/
theorem atMostOneDiagnosticPerInstruction : Obligations.AtMostOneDiagnosticPerInstruction :=
  fun _ _ _ h => (exec_effect h).diag

/-- Settles O40: in Running each timer counts down. -/
theorem tickDecrementsBothTimers : Obligations.TickDecrementsBothTimers := by
  intro s t h hl
  refine ⟨(t.setDT (countDown t.DT)).setST (countDown t.ST), ?_, countDown_toNat t.DT, countDown_toNat t.ST, rfl⟩
  rw [step_of_nextEvent h]
  exact congrArg _ (tick_running hl)

/-- Settles O60, by induction on a bound of DT: fairness brings a tick, which takes 1 from it, and no step before or
after gives it back. -/
theorem fairRunTimerReachesZero : Obligations.FairRunTimerReachesZero := by
  intro σ arrivals hrun hfair hrunning hDT
  have hanti : Antitone fun n => (σ n).DT.toNat := antitone_nat_of_succ_le hDT
  suffices hbound : ∀ k n, (σ n).DT.toNat ≤ k → ∃ m, (σ m).DT = 0 from hbound _ 0 le_rfl
  intro k
  induction k with
  | zero => exact fun n hn => ⟨n, BitVec.eq_of_toNat_eq (Nat.le_zero.mp hn)⟩
  | succ k ih =>
    intro n hn
    obtain ⟨-, m, hnm, htick⟩ := hfair n fun m _ => hrunning m
    refine ih (m + 1) ?_
    have hm : (σ m).DT.toNat ≤ (σ n).DT.toNat := hanti hnm
    have hdec := hrun.DT_tick htick (hrunning m)
    omega

/-- Settles O41: a tick that is not enabled leaves the state. -/
theorem timersFrozenUnlessRunning : Obligations.TimersFrozenUnlessRunning := by
  intro s t h hl
  rw [step_of_nextEvent h]
  exact congrArg _ (tick_idle hl)

/-- Settles O42: each signal's effect, case by case in the lifecycle state. -/
theorem lifecycleSignals : Obligations.LifecycleSignals := by
  refine fun s t => ⟨fun h => ?_, fun h => ?_, fun h => step_of_nextEvent h⟩ <;> rw [step_of_nextEvent h]
  · exact congrArg _ (pauseSignal_eq t)
  · refine congrArg _ (t.resume_eq.trans ?_)
    split <;> rfl

/-- Settles O46: the choice follows the queue, then the strategy, then the lifecycle state. -/
theorem batchThenTick : Obligations.BatchThenTick := by
  refine fun s => ⟨fun e rest => nextEvent_cons, nextEvent_strategyA, fun hp hs hl => ⟨fun hlt => ?_, fun hge => ?_⟩,
    fun hp _ hl => nextEvent_idle hl hp⟩ <;> rw [nextEvent_strategyB hp hs hl]
  · exact if_pos hlt
  · exact if_neg (Nat.not_lt.mpr hge)

end Sys2Proof.Proofs
end

section
/-! SUPPORT. The memory a load leaves, address by address, and the lengths at which a load fails (spec/70_reset_and_hazards.md R350, R351). -/

namespace Sys2Proof.Machine

variable {s t : State} {rom : List Byte} {a : Nat}

/-- Byte `k` of a ROM that fits stands at `0x200 + k`. -/
theorem State.read?_loaded_rom (t : State) (hrom : rom.length ≤ 3584) {k : Nat} (hk : k < rom.length) :
    (t.loaded rom).mem.read? (0x200 + k) = some rom[k] :=
  Memory.read?_writeRun_covered Memory.nil_wf (List.getElem?_eq_getElem hk)
    (Nat.add_lt_add_left (hk.trans_le hrom) 0x200)

/-- An address that holds no ROM byte reads as after reset: the font and zeros (R59). -/
theorem State.read?_loaded_outside (t : State) (ha : a < 0x200 ∨ 0x200 + rom.length ≤ a) :
    (t.loaded rom).mem.read? a = State.reset.mem.read? a :=
  Memory.read?_writeRun_outside Memory.nil_wf ha

/-- A step whose event is a load fails just on a bad length, under that length's own name. -/
theorem step_load_eq_fault_iff {f : Fault} (h : s.nextEvent = (.load rom, t)) :
    step s = .fault f ↔ (rom.length = 0 ∧ f = .emptyRom) ∨ (3584 < rom.length ∧ f = .romTooLarge) := by
  rw [step_of_nextEvent h]
  exact loadRom_eq_fault_iff

end Sys2Proof.Machine
end

section
/-! The statements of 70_reset_and_hazards.md. -/

namespace Sys2Proof.Proofs

open Sys2Proof Sys2Proof.Machine

/-- Settles O44: the loaded state is the reset state, except for the ROM in memory and the fields that a load keeps. -/
theorem loadRebuildsTheMachine : Obligations.LoadRebuildsTheMachine := by
  intro s t rom h hpos hmax
  refine ⟨t.loaded rom, step_load h hpos hmax, ?rom, ?background, ?range, rfl⟩
  case rom => exact fun _ hk => t.read?_loaded_rom hmax hk
  case background => exact fun _ ha => t.read?_loaded_outside ha
  case range => exact fun _ ha => Memory.read?_of_ge _ ha

/-- Settles O45: of the faults of a load, each bad length has its own. -/
theorem loadRefusesBadLengths : Obligations.LoadRefusesBadLengths := by
  refine ⟨rfl, rfl, fun s t rom h => ⟨fun hempty => ?_, fun hlarge => ?_⟩⟩
  · exact (step_load_eq_fault_iff h).mpr (.inl ⟨hempty, rfl⟩)
  · exact (step_load_eq_fault_iff h).mpr (.inr ⟨hlarge, rfl⟩)

end Sys2Proof.Proofs
end
